-- ==== Sys2Proof/Word.lean ====
section
/-! DEFINITION. The word of GPIO-PCC: every bank register, every command and every transaction is one 32-bit word
(00_scope.md R11, R14; 10_state.md R32), and the three registers of sixteen 1-bit fields store sixteen bits (R36, R39). -/

namespace Sys2Proof

/-- `u32` of 00_scope.md R11. -/
abbrev Word := BitVec 32

/-- The implemented half of `OTYPE` and `ODATA` (10_state.md R36, R39). -/
abbrev Half := BitVec 16

end Sys2Proof
end

