-- ==== Sys2Proof/Config.lean ====
section
/-! DEFINITION. What an implementation fixes and what the spec leaves open: the parameters of 00_scope.md R8, their
defaults, and the free values (constants without a body, of which nothing can be proved). -/

namespace Sys2Proof

/-- The stored registers of one port bank, 192 bits (10_state.md R46): the shape of `INIT_BANK[p]` and of `B[p]`. -/
structure Bank where
  mode  : Word
  otype : Half
  speed : Word
  pull  : Word
  odata : Half
  afl   : Word
  afh   : Word
deriving DecidableEq, Repr, Inhabited

/-- Bus read-write pairs per field update, `RMW_SPLIT` in 1, 2 (40_configuration.md R133). -/
inductive RmwSplit where
  | one
  | two
deriving DecidableEq, Repr, Inhabited

/-- The status codes of a completed command (60_exceptions.md R171); code 3 is never produced (U9). -/
inductive Status where
  | success
  | fail
  | null
deriving DecidableEq, Repr, Inhabited

/-- `ST_SUCCESS = 0`, `ST_FAIL = 1`, `ST_NULL = 2` (60_exceptions.md R171). -/
def Status.code : Status → BitVec 2
  | .success => 0
  | .fail    => 1
  | .null    => 2

/-- The fields of a command context that reset leaves unspecified (70_reset_and_hazards.md R192). -/
structure Latches where
  cmd    : Word
  ustep  : BitVec 5
  tmp    : Word
  status : Status
  rval   : BitVec 1
deriving DecidableEq, Repr, Inhabited

/-- The OPEN parameters of 00_scope.md R8 that are values (`NCTX` is the number of contexts of the state). They are
carried by the state unchanged, so that a claim about every state holds for every value of them. -/
structure Params where
  /-- `RMW_SPLIT` (40_configuration.md R133). -/
  rmwSplit      : RmwSplit
  /-- Mode codes other than `MODE_OUTPUT` (30_encoding.md R108). -/
  modeInput     : BitVec 2
  modeAF        : BitVec 2
  modeAnalog    : BitVec 2
  /-- Pull codes other than `PULL_NONE` (30_encoding.md R109). -/
  pullUp        : BitVec 2
  pullDown      : BitVec 2
  /-- Speed codes (30_encoding.md R111). -/
  speedLow      : BitVec 2
  speedMedium   : BitVec 2
  speedHigh     : BitVec 2
  speedVeryHigh : BitVec 2
  /-- `BASE[p]`, byte addresses (20_memory.md R72). -/
  base          : Vector Nat 8
  /-- `OFF[r]`, byte offsets by register id (20_memory.md R72). -/
  off           : Vector Nat 9
  /-- `INIT_BANK[p]` (70_reset_and_hazards.md R191). -/
  initBank      : Vector Bank 8
deriving DecidableEq, Repr

/-- `MODE_OUTPUT`, fixed by the source (30_encoding.md R108). -/
def Config.modeOutput : BitVec 2 := 0b01

/-- `PULL_NONE`, fixed by the source (30_encoding.md R109). -/
def Config.pullNone : BitVec 2 := 0b00

/-- `OTYPE_PP`, fixed by the source (30_encoding.md R110). -/
def Config.otypePP : BitVec 1 := 0

/-- `OTYPE_OD`, the only value left (30_encoding.md R110). -/
def Config.otypeOD : BitVec 1 := 1

/-- `Low` and `High` of the `LEVEL` field and of `rval` (30_encoding.md R112). -/
def Config.levelLow : BitVec 2 := 0
def Config.levelHigh : BitVec 2 := 1

/-- `INIT_BANK[p]`: contents of bank `p` after reset, OPEN with no default (70_reset_and_hazards.md R191).
DESIGN CHOICE (log 2): a constant of which nothing is known. -/
opaque Config.initBank : Fin 8 → Bank

/-- Reset contents of the unspecified fields of context `c` at draw `d` (70_reset_and_hazards.md R192): free (log 3). -/
opaque Config.latches : Nat → Nat → Latches

/-- `ENV[p][n]` at draw `d`: a free bit at every read of `IDATA` (10_state.md R51): free (log 5). -/
opaque Config.env : Nat → Fin 8 → Nat → Bool

/-- The word a read of a disabled bank returns at draw `d` (20_memory.md R87): free (log 6). -/
opaque Config.disabledRead : Nat → Word

/-- Which busy context moves next when the environment prescribes nothing and several could (20_memory.md R90):
free (log 7). -/
opaque Config.pick : Nat → Nat

/-- What the direct port's result holds before its first read (log 14): free. -/
opaque Config.dpReset : Word

/-- Default number of command contexts, `NCTX` (00_scope.md R8; DESIGN CHOICE, log 1). -/
def Config.nctx : Nat := 2

/-- The defaults of 00_scope.md R8 (DESIGN CHOICE for `RMW_SPLIT`; PRESUMED for the codes, addresses and offsets, which
the spec marks as general knowledge: log 1), with `INIT_BANK` left open (log 2). -/
def Config.defaults : Params where
  rmwSplit      := .one
  modeInput     := 0b00
  modeAF        := 0b10
  modeAnalog    := 0b11
  pullUp        := 0b01
  pullDown      := 0b10
  speedLow      := 0b00
  speedMedium   := 0b01
  speedHigh     := 0b10
  speedVeryHigh := 0b11
  base          := #v[0x40020000, 0x40020400, 0x40020800, 0x40020C00, 0x40021000, 0x40021400, 0x40021800, 0x40021C00]
  off           := #v[0x00, 0x04, 0x08, 0x0C, 0x10, 0x14, 0x18, 0x20, 0x24]
  initBank      := #v[Config.initBank 0, Config.initBank 1, Config.initBank 2, Config.initBank 3,
                      Config.initBank 4, Config.initBank 5, Config.initBank 6, Config.initBank 7]

end Sys2Proof
end

