-- ==== Sys2Proof/Syntax.lean ====
section
/-! DEFINITION. The commands of PCC-4 (30_encoding.md R100), one constructor per row of opcode_table.json, and the lines
of the spec's assembler notation (R116). A command carries only the fields it uses: an ignored field has no effect of
any kind (R105). -/

namespace Sys2Proof

/-- The command set (30_encoding.md R100, R104). Field widths are those of R103, so a term cannot carry a code wider than
its field (U6); identifiers may be invalid and are rejected when the command executes (R119). -/
inductive Instr where
  /-- `INIT`: Initialize Pin (40_configuration.md R130). -/
  | init (port pin : BitVec 8) (mode pull : BitVec 2) (otype : BitVec 1) (speed : BitVec 2) (af : BitVec 4)
  /-- `INIT.NULL`: Initialize Pin with the descriptor absent (40_configuration.md R131). -/
  | initNull
  /-- `SET`: Set Pin Value (41_pin_io.md R150). -/
  | set (port pin : BitVec 8) (level : BitVec 2)
  /-- `TGL`: Toggle Pin Value (41_pin_io.md R154). -/
  | tgl (port pin : BitVec 8)
  /-- `RD`: Read Pin Value (41_pin_io.md R158). -/
  | rd (port pin : BitVec 8)
deriving DecidableEq, Repr

/-- An operand of the assembler notation: a name or a number, "a number is always accepted where a name is"
(30_encoding.md R116). -/
inductive AsmOperand where
  | name (text : String)
  | num (value : Nat)
deriving DecidableEq, Repr

/-- One line of the assembler notation: the command's name and its operands (30_encoding.md R116). -/
structure AsmLine where
  command  : String
  operands : List AsmOperand
deriving DecidableEq, Repr

end Sys2Proof
end

