-- ==== Sys2Proof/WellFormed.lean ====
section
/-! DEFINITION. Well-formedness: of a command (nothing to check beyond its field widths, which are types), and of a
platform's parameters (00_scope.md R9, 20_memory.md R72). -/

namespace Sys2Proof

/-- Every command is well formed: each field has exactly its width (30_encoding.md R103) and every value of it is a
command's (R114, "There is no illegal command word"). Invalid identifiers are a matter of execution (R119). -/
def Instr.wellFormed : Instr → Bool
  | .init _ _ _ _ _ _ _ => true
  | .initNull => true
  | .set _ _ _ => true
  | .tgl _ _ => true
  | .rd _ _ => true

/-- The mode codes are pairwise distinct (00_scope.md R9). -/
def Params.modesDistinct (P : Params) : Bool :=
  decide [P.modeInput, Config.modeOutput, P.modeAF, P.modeAnalog].Nodup

/-- The pull codes are pairwise distinct (00_scope.md R9). -/
def Params.pullsDistinct (P : Params) : Bool :=
  decide [Config.pullNone, P.pullUp, P.pullDown].Nodup

/-- The speed codes are pairwise distinct (00_scope.md R9). -/
def Params.speedsDistinct (P : Params) : Bool :=
  decide [P.speedLow, P.speedMedium, P.speedHigh, P.speedVeryHigh].Nodup

/-- The 72 platform addresses `BASE[p] + OFF[r]` (20_memory.md R72). -/
def Params.addresses (P : Params) : List Nat :=
  P.base.toList.flatMap fun b => P.off.toList.map fun o => b + o

/-- "the 72 addresses `BASE[p] + OFF[r]` are pairwise distinct" (20_memory.md R72). -/
def Params.addressesDistinct (P : Params) : Bool :=
  decide P.addresses.Nodup

/-- "and each a multiple of 4" (20_memory.md R72). -/
def Params.addressesAligned (P : Params) : Bool :=
  P.addresses.all fun a => a % 4 == 0

/-- What a platform's parameters must meet (00_scope.md R9; 20_memory.md R72). -/
def Params.legal (P : Params) : Bool :=
  P.modesDistinct && P.pullsDistinct && P.speedsDistinct && P.addressesDistinct && P.addressesAligned

end Sys2Proof
end

