-- ==== Sys2Proof/Decode.lean ====
section
/-! DEFINITION. The command word (30_encoding.md R102): the decoded record of R119, the decoder, and the encoder written
from the same layout. Decoding a 32-bit word is total and cannot fail (R119); what is not one such word is rejected by
name. -/

namespace Sys2Proof

/-- The decoded command of 30_encoding.md R119. -/
structure Cmd where
  op    : BitVec 2
  dv    : BitVec 1
  level : BitVec 2
  af    : BitVec 4
  speed : BitVec 2
  otype : BitVec 1
  pull  : BitVec 2
  mode  : BitVec 2
  port  : BitVec 8
  pin   : BitVec 8
deriving DecidableEq, Repr

/-- The record of a command word: `w.extractLsb hi lo` is `w[hi:lo]` (30_encoding.md R119; 00_scope.md R10). -/
def cmdOfWord (w : Word) : Cmd where
  op    := w.extractLsb 31 30
  dv    := w.extractLsb 29 29
  level := w.extractLsb 28 27
  af    := w.extractLsb 26 23
  speed := w.extractLsb 22 21
  otype := w.extractLsb 20 20
  pull  := w.extractLsb 19 18
  mode  := w.extractLsb 17 16
  port  := w.extractLsb 15 8
  pin   := w.extractLsb 7 0

/-- The command a record selects (30_encoding.md R104). -/
def instrOfCmd (c : Cmd) : Instr :=
  match c.op.toNat with
  | 0 => if c.dv = 1 then .init c.port c.pin c.mode c.pull c.otype c.speed c.af else .initNull
  | 1 => .set c.port c.pin c.level
  | 2 => .tgl c.port c.pin
  | _ => .rd c.port c.pin

/-- Decoding of a command word (30_encoding.md R104, R119). -/
def decodeWord (w : Word) : Instr := instrOfCmd (cmdOfWord w)

/-- Why bits are no command: every command is one 32-bit word (30_encoding.md R101). -/
inductive DecodeError where
  /-- No word was presented. -/
  | noWord
  /-- More than one word was presented. -/
  | notOneWord
deriving DecidableEq, Repr

/-- Decoding of whatever words are presented: exactly one is a command (30_encoding.md R101, R115). -/
def decode : List Word → Except DecodeError Instr
  | [] => .error .noWord
  | [w] => .ok (decodeWord w)
  | _ :: _ :: _ => .error .notOneWord

/-- The instruction read from an instruction whose bits are `w`, `nbits` of them given and the others 0. The command is
presented as one 32-bit number (10_state.md R56), so there is no byte order to choose. -/
def decodeTableWord (nbits w : Nat) : Option Instr :=
  match decode (if nbits ≤ 32 then [BitVec.ofNat 32 (w % 2 ^ nbits)] else []) with
  | .ok i => some i
  | .error _ => none

/-! ## Encoding -/

/-- The canonical record of a command: every ignored field 0 (30_encoding.md R105). -/
def cmdOfInstr : Instr → Cmd
  | .init port pin mode pull otype speed af =>
    { op := 0b00, dv := 1, level := 0, af, speed, otype, pull, mode, port, pin }
  | .initNull =>
    { op := 0b00, dv := 0, level := 0, af := 0, speed := 0, otype := 0, pull := 0, mode := 0, port := 0, pin := 0 }
  | .set port pin level =>
    { op := 0b01, dv := 0, level, af := 0, speed := 0, otype := 0, pull := 0, mode := 0, port, pin }
  | .tgl port pin =>
    { op := 0b10, dv := 0, level := 0, af := 0, speed := 0, otype := 0, pull := 0, mode := 0, port, pin }
  | .rd port pin =>
    { op := 0b11, dv := 0, level := 0, af := 0, speed := 0, otype := 0, pull := 0, mode := 0, port, pin }

/-- The word of a record, most significant field first: `oo d ll aaaa ss t uu mm pppppppp nnnnnnnn`
(30_encoding.md R102). -/
def wordOfCmd (c : Cmd) : Word :=
  c.op ++ c.dv ++ c.level ++ c.af ++ c.speed ++ c.otype ++ c.pull ++ c.mode ++ c.port ++ c.pin

/-- The canonical word of a command, "which an assembler produces" (30_encoding.md R105). -/
def encode (i : Instr) : Word := wordOfCmd (cmdOfInstr i)

/-- The bits of a word that its command reads: all but the fields it ignores (30_encoding.md R102, R105). -/
def usedMask : Instr → Word
  | .init _ _ _ _ _ _ _ => 0xE7FFFFFF
  | .initNull => 0xE0000000
  | .set _ _ _ => 0xD800FFFF
  | .tgl _ _ => 0xC000FFFF
  | .rd _ _ => 0xC000FFFF

/-- A word is canonical when every field its command ignores is 0 (30_encoding.md R105). -/
def isCanonical (w : Word) : Bool := decide (encode (decodeWord w) = w)

/-! ## The opcode map as the table gives it -/

/-- A row of the opcode map (30_encoding.md R104). -/
structure OpcodeRow where
  mnemonic : String
  pattern  : Word
  mask     : Word
deriving DecidableEq, Repr

/-- The opcode map (30_encoding.md R104; opcode_table.json). -/
def opcodeMap : List OpcodeRow :=
  [{ mnemonic := "INIT",      pattern := 0x20000000, mask := 0xE0000000 },
   { mnemonic := "INIT.NULL", pattern := 0x00000000, mask := 0xE0000000 },
   { mnemonic := "SET",       pattern := 0x40000000, mask := 0xC0000000 },
   { mnemonic := "TGL",       pattern := 0x80000000, mask := 0xC0000000 },
   { mnemonic := "RD",        pattern := 0xC0000000, mask := 0xC0000000 }]

/-- "A word `w` is the command of a row when `w & mask = match`" (30_encoding.md R104). -/
def rowMatches (w : Word) (row : OpcodeRow) : Bool := decide (w &&& row.mask = row.pattern)

/-- The mnemonic of a command, as opcode_table.json spells it. -/
def mnemonic : Instr → String
  | .init _ _ _ _ _ _ _ => "INIT"
  | .initNull => "INIT.NULL"
  | .set _ _ _ => "SET"
  | .tgl _ _ => "TGL"
  | .rd _ _ => "RD"

end Sys2Proof
end

