-- ==== Sys2Proof/Machine/State.lean ====
section
/-! DEFINITION. The state of GPIO-PCC as plain data: the eight banks and the command contexts (10_state.md R46, R55), the
block's inputs and parameters, and the moves of the agents still to come. INVENTORY.md lists every field with its rule. -/

namespace Sys2Proof.Machine

/-- The nine registers of a bank (10_state.md R31). -/
inductive Reg where
  | mode
  | otype
  | speed
  | pull
  | idata
  | odata
  | setrst
  | afl
  | afh
deriving DecidableEq, Repr

/-- A command context `K[c]` (10_state.md R55). -/
structure Context where
  /-- 1 while a command is in flight. -/
  busy      : Bool
  /-- The command word latched at issue. -/
  cmd       : Word
  /-- Step index inside the command, range 0..21 (R57). -/
  ustep     : BitVec 5
  /-- The value returned by the command's most recent `RegRead` (R59). -/
  tmp       : Word
  /-- Status of the most recently completed command. -/
  status    : Status
  /-- The output slot: level returned by the most recent successful `RD`. -/
  rval      : BitVec 1
  /-- 1 from the completion of a command until the next issue. -/
  respValid : Bool
deriving DecidableEq, Repr

/-- One move of an agent outside the commands, or the choice that a context moves (20_memory.md R90;
70_reset_and_hazards.md R213). -/
inductive Input where
  /-- A requester issues word `w` on context `c` (10_state.md R56). -/
  | issue (c : Nat) (w : Word)
  /-- Context `c` performs the next step of its command (70_reset_and_hazards.md R213). -/
  | run (c : Nat)
  /-- The direct port performs `RegRead(p, r)` (10_state.md R63). -/
  | dpRead (p r : Nat)
  /-- The direct port performs `RegWrite(p, r, v)` (10_state.md R63). -/
  | dpWrite (p r : Nat) (v : Word)
  /-- The direct port reads `size` bytes at a platform address (00_scope.md R14; 20_memory.md R72, R74). -/
  | busRead (addr size : Nat)
  /-- The direct port writes `size` bytes at a platform address (00_scope.md R14; 20_memory.md R72, R74). -/
  | busWrite (addr size : Nat) (v : Word)
  /-- The platform drives `BANK_EN[p]` (10_state.md R52). -/
  | bankEn (p : Fin 8) (enabled : Bool)
  /-- The platform asserts `rst` (70_reset_and_hazards.md R190). -/
  | rst
deriving DecidableEq, Repr

/-- The state of the block, its inputs and its surroundings. -/
structure State where
  /-- The parameters of 00_scope.md R8; no step changes them. -/
  params  : Params
  /-- `B[0]`..`B[7]` (10_state.md R31, R46). -/
  banks   : Vector Bank 8
  /-- `K[0]`..`K[NCTX-1]` (10_state.md R55). -/
  ctxs    : List Context
  /-- The input `BANK_EN[p]` (10_state.md R52). -/
  bankEn  : Vector Bool 8
  /-- The moves still to come, oldest first (the model's own; log 7). -/
  inputs  : List Input
  /-- The context whose step is being performed (the model's own; log 7). -/
  cur     : Nat
  /-- Number of the next draw of a free value (the model's own; log 5). -/
  draws   : Nat
  /-- What the direct port's last read returned (10_state.md R63; the model's own, log 14). -/
  dpValue : Word
deriving DecidableEq, Repr

/-- Why the model is stuck. The block raises no fault (60_exceptions.md R170): these are states that no run reaches. -/
inductive Fault where
  /-- Raised by a command's step when the executing context is none of `K[0]`..`K[NCTX-1]`. Safe: never reached by
  `step`, which selects an existing context. -/
  | noSuchContext
  /-- Raised by a command's step when the context's step index lies beyond the command's step list (10_state.md R57
  bounds it). Safe: the machine stops where the spec says nothing can be. -/
  | noStepLeft
deriving DecidableEq, Repr

/-- Why a move has no step. -/
inductive Refusal where
  /-- Raised by an arm of `exec` for an instruction without a meaning. Safe. No arm does. -/
  | notModelled (mnemonic : String)
  /-- Raised by an issue on a context with a command in flight (10_state.md R56, "no issue on `c` is possible").
  Safe: the spec gives no such step. -/
  | contextBusy
  /-- Raised by the choice of an idle context (70_reset_and_hazards.md R213, "one step of a busy context's command").
  Safe: the spec gives no such step. -/
  | contextIdle
  /-- Raised by a move that names a context beyond `NCTX` (10_state.md R55). Safe: the spec gives no such step. -/
  | noSuchContext
  /-- Raised by a direct-port transaction with `p >= 8` or `r >= 9` (20_memory.md R85, "is refused (no step)"). Safe. -/
  | noSuchRegister
  /-- Raised by an access of other than 4 bytes (20_memory.md R74, "it has no step"). Safe: errs toward unprovable. -/
  | notOneWord
  /-- Raised by a platform address that is none of the 72 (20_memory.md R73, R75, "the access is refused (no step)").
  Safe: such an access is outside the block. -/
  | noRegisterAt (addr : Nat)
deriving DecidableEq, Repr

/-- An idle context with the given unspecified contents (70_reset_and_hazards.md R192). -/
def idleContext (l : Latches) : Context :=
  { busy := false, cmd := l.cmd, ustep := l.ustep, tmp := l.tmp, status := l.status, rval := l.rval, respValid := false }

/-- `n` idle contexts, the unspecified contents of each drawn at draw `d` (70_reset_and_hazards.md R192, R196; log 3). -/
def idleContexts (d : Nat) : Nat → List Context
  | 0 => []
  | n + 1 => idleContexts d n ++ [idleContext (Config.latches d n)]

/-- The machine right after reset (70_reset_and_hazards.md R196), under the default parameters (00_scope.md R8), with
every bank enabled (the launch premise of R198, log 4) and nobody moving. -/
def State.reset : State where
  params  := Config.defaults
  banks   := Config.defaults.initBank
  ctxs    := idleContexts 0 Config.nctx
  bankEn  := #v[true, true, true, true, true, true, true, true]
  inputs  := []
  cur     := 0
  draws   := 1
  dpValue := Config.dpReset

end Sys2Proof.Machine
end

