-- ==== Sys2Proof/Machine/Operands.lean ====
section
/-! DEFINITION. The operands of the commands: the field primitives of 00_scope.md R15, register ids, the field locator of
10_state.md R42, platform addresses, and the bus transactions a command's step list is made of. -/

namespace Sys2Proof.Machine

/-! ## Field primitives -/

/-- `clear_field(r, mask, shift)` (00_scope.md R15). -/
def clearField (r mask : Word) (shift : Nat) : Word := r &&& ~~~(mask <<< shift)

/-- `set_field(r, v, shift)` (00_scope.md R15). -/
def setField (r v : Word) (shift : Nat) : Word := r ||| (v <<< shift)

/-- `(1 << w) - 1`, the mask of a field of width `w` (00_scope.md R15). -/
def fieldMask (w : Nat) : Word := 1#32 <<< w - 1#32

/-- `update_field(r, w, shift, v)`: "clear-mask then OR-in" (00_scope.md R15). -/
def updateField (r : Word) (w shift : Nat) (v : Word) : Word := setField (clearField r (fieldMask w) shift) v shift

/-- `get_field(r, w, shift)` (00_scope.md R15). -/
def getField (r : Word) (w shift : Nat) : Word := (r >>> shift) &&& fieldMask w

/-- The word of `k` bits whose bit `i` is `f i`. -/
def bitsOf : (k : Nat) → (Nat → Bool) → BitVec k
  | 0, _ => 0#0
  | k + 1, f => BitVec.cons (f k) (bitsOf k f)

/-! ## Registers -/

/-- The register id `r` (10_state.md R31). -/
def regId : Reg → Nat
  | .mode => 0
  | .otype => 1
  | .speed => 2
  | .pull => 3
  | .idata => 4
  | .odata => 5
  | .setrst => 6
  | .afl => 7
  | .afh => 8

/-- The register of an id; an id of 9 or more names none (10_state.md R31; 20_memory.md R85). -/
def regOfId : Nat → Option Reg
  | 0 => some .mode
  | 1 => some .otype
  | 2 => some .speed
  | 3 => some .pull
  | 4 => some .idata
  | 5 => some .odata
  | 6 => some .setrst
  | 7 => some .afl
  | 8 => some .afh
  | _ => none

/-- The bank of a selector; a selector of 8 or more names none (20_memory.md R85). -/
def bankOfId (p : Nat) : Option (Fin 8) := if h : p < 8 then some ⟨p, h⟩ else none

/-- A field's place: register, width, shift (10_state.md R42). -/
structure Loc where
  reg   : Reg
  width : Nat
  shift : Nat
deriving DecidableEq, Repr

/-- The kinds of field a pin has (10_state.md R42). -/
inductive Field where
  | mode
  | pull
  | otype
  | speed
  | af
  | odata
  | idata
  | set
  | rst
deriving DecidableEq, Repr

/-- `Loc(field, n)` (10_state.md R42). -/
def locate (f : Field) (n : Fin 16) : Loc :=
  match f with
  | .mode  => { reg := .mode,   width := 2, shift := 2 * n.val }
  | .pull  => { reg := .pull,   width := 2, shift := 2 * n.val }
  | .otype => { reg := .otype,  width := 1, shift := n.val }
  | .speed => { reg := .speed,  width := 2, shift := 2 * n.val }
  | .af    => { reg := if n.val / 8 = 0 then .afl else .afh, width := 4, shift := n.val % 8 * 4 }
  | .odata => { reg := .odata,  width := 1, shift := n.val }
  | .idata => { reg := .idata,  width := 1, shift := n.val }
  | .set   => { reg := .setrst, width := 1, shift := n.val }
  | .rst   => { reg := .setrst, width := 1, shift := n.val + 16 }

/-! ## Platform addresses -/

/-- `BASE[p] + OFF[r]` (20_memory.md R72, R89). -/
def regAddress (P : Params) (p : Fin 8) (r : Reg) : Nat := P.base[p] + P.off.toList.getD (regId r) 0

/-- The 72 locations, bank by bank in the order of ids (10_state.md R61). -/
def allLocations : List (Fin 8 × Reg) :=
  ([0, 1, 2, 3, 4, 5, 6, 7] : List (Fin 8)).flatMap fun p =>
    [(p, .mode), (p, .otype), (p, .speed), (p, .pull), (p, .idata), (p, .odata), (p, .setrst), (p, .afl), (p, .afh)]

/-- The register at a platform address, if it is one of the 72 (20_memory.md R72, R73, R75). -/
def regAt (P : Params) (addr : Nat) : Option (Fin 8 × Reg) :=
  allLocations.find? fun l => regAddress P l.1 l.2 == addr

/-- The byte of a register at offset `k` of its address on a byte-addressed bus: bits `[8k+7 : 8k]`, little-endian
(20_memory.md R76). -/
def byteOfReg (v : Word) (k : Fin 4) : BitVec 8 := v.extractLsb' (8 * k.val) 8

/-! ## The bus transactions of a command -/

/-- One bus transaction of a command, as the step lists write it (40_configuration.md R132, R133, R136; 41_pin_io.md
R151, R155, R159). The bank is the command's. -/
inductive Txn where
  /-- `tmp <- RegRead(p, r)`. -/
  | load (r : Reg)
  /-- `tmp <- RegRead(p, IDATA); rval <- (tmp >> n) & 1`. -/
  | loadLevel (n : Nat)
  /-- `RegWrite(p, r, update_field(tmp, w, s, v))`. -/
  | storeUpdated (l : Loc) (v : Word)
  /-- `RegWrite(p, r, clear_field(tmp, (1 << w) - 1, s))`. -/
  | storeCleared (l : Loc)
  /-- `RegWrite(p, r, set_field(tmp, v, s))`. -/
  | storeSet (l : Loc) (v : Word)
  /-- `RegWrite(p, r, tmp ^ (1 << n))`. -/
  | storeFlipped (r : Reg) (n : Nat)
  /-- `RegWrite(p, r, v)`. -/
  | store (r : Reg) (v : Word)
deriving DecidableEq, Repr

/-- `FieldUpdate` with `RMW_SPLIT = 1` (40_configuration.md R132) or 2 (R133). -/
def fieldUpdate (split : RmwSplit) (l : Loc) (v : Word) : List Txn :=
  match split with
  | .one => [.load l.reg, .storeUpdated l v]
  | .two => [.load l.reg, .storeCleared l, .load l.reg, .storeSet l v]

/-- `IsDriven(mode)` (40_configuration.md R134). -/
def isDriven (P : Params) (mode : BitVec 2) : Bool := mode == Config.modeOutput || mode == P.modeAF

/-- `IsAF(mode)` (40_configuration.md R135). -/
def isAF (P : Params) (mode : BitVec 2) : Bool := mode == P.modeAF

/-- The transactions of a valid `INIT`, in order: mode, pull, output type, speed, alternate function
(40_configuration.md R130, R136, R137). -/
def initScript (P : Params) (mode pull : BitVec 2) (otype : BitVec 1) (speed : BitVec 2) (af : BitVec 4) (n : Fin 16) :
    List Txn :=
  fieldUpdate P.rmwSplit (locate .mode n) (mode.setWidth 32) ++
  fieldUpdate P.rmwSplit (locate .pull n) (pull.setWidth 32) ++
  (if isDriven P mode then
    fieldUpdate P.rmwSplit (locate .otype n) (otype.setWidth 32) ++
    fieldUpdate P.rmwSplit (locate .speed n) (speed.setWidth 32) ++
    (if isAF P mode then fieldUpdate P.rmwSplit (locate .af n) (af.setWidth 32) else [])
  else [])

/-- The word a `SET` writes: the pin's bit of the set half for High, of the reset half for Low (41_pin_io.md R151). -/
def setWord (level : BitVec 2) (n : Fin 16) : Word :=
  if level = Config.levelHigh then 1#32 <<< n.val else 1#32 <<< (n.val + 16)

/-- The transaction of a valid `SET` (41_pin_io.md R151). -/
def setScript (level : BitVec 2) (n : Fin 16) : List Txn := [.store .setrst (setWord level n)]

/-- The transactions of a valid `TGL` (41_pin_io.md R155). -/
def tglScript (n : Fin 16) : List Txn := [.load .odata, .storeFlipped .odata n.val]

/-- The transaction of a valid `RD` (41_pin_io.md R159). -/
def rdScript (n : Fin 16) : List Txn := [.loadLevel n.val]

end Sys2Proof.Machine
end

