-- ==== Sys2Proof/Machine/Flags.lean ====
section
/-! DEFINITION. What a command reports. The block has no condition codes; its status bits are `busy`, `resp_valid`,
`status` and `rval` of each context (10_state.md R58). Validation decides the status (60_exceptions.md R173) and completion
writes it (00_scope.md R16). -/

namespace Sys2Proof.Machine

/-- The outcome of validation: a failure status, or a valid bank and pin (60_exceptions.md R173). -/
inductive Verdict where
  | reject (st : Status)
  | pass (p : Fin 8) (n : Fin 16)
deriving DecidableEq, Repr

/-- The range checks of every command: `PORT >= 8` or `PIN >= 16` gives `ST_FAIL` (00_scope.md R19;
60_exceptions.md R173). -/
def validatePin (port pin : BitVec 8) : Verdict :=
  if hp : port.toNat < 8 then
    if hn : pin.toNat < 16 then .pass ⟨port.toNat, hp⟩ ⟨pin.toNat, hn⟩ else .reject .fail
  else .reject .fail

/-- The checks of `SET`: the range checks, and `LEVEL >= 2` gives `ST_FAIL` (41_pin_io.md R152; 60_exceptions.md R173). -/
def validateSet (port pin : BitVec 8) (level : BitVec 2) : Verdict :=
  if 2 ≤ level.toNat then .reject .fail else validatePin port pin

/-- `Validate(cmd)` (60_exceptions.md R173); an absent descriptor gives `ST_NULL` whatever the other fields hold
(R174). -/
def validate : Instr → Verdict
  | .init port pin _ _ _ _ _ => validatePin port pin
  | .initNull => .reject .null
  | .set port pin level => validateSet port pin level
  | .tgl port pin => validatePin port pin
  | .rd port pin => validatePin port pin

/-- The context after `complete(c, st)` (00_scope.md R16; 10_state.md R56). -/
def completed (k : Context) (st : Status) : Context := { k with status := st, busy := false, respValid := true }

/-- The context after a step that does not complete the command (10_state.md R57). -/
def advanced (k : Context) : Context := { k with ustep := k.ustep + 1 }

/-- The context after `Issue(c, w)` (10_state.md R56): `rval`, `tmp` and `status` are not touched. -/
def issued (k : Context) (w : Word) : Context := { k with cmd := w, busy := true, ustep := 0, respValid := false }

end Sys2Proof.Machine
end

