-- ==== Sys2Proof/Machine/Ops.lean ====
section
/-! DEFINITION. The named operations over the banks and the contexts: the pad, the two bus transactions, the step of a
command, issue, reset and the direct port. The block has no exception to take and none to return from (60_exceptions.md
R170, R176, R177): a failing command ends by `completed` with its status, in `commandStep`. -/

namespace Sys2Proof.Machine

/-! ## The pad -/

/-- `PadLevel(p, n)`: the `ODATA` bit of an enabled push-pull output, otherwise the environment's level at draw `d`
(10_state.md R50, R51). -/
def padLevel (s : State) (p : Fin 8) (n : Nat) : Bool :=
  if s.bankEn[p] = true ∧ getField s.banks[p].mode 2 (2 * n) = Config.modeOutput.setWidth 32 ∧
      s.banks[p].otype.getLsbD n = false then
    s.banks[p].odata.getLsbD n
  else Config.env s.draws p n

/-- The word `IDATA` shows: bit `n` is `PadLevel(p, n)`, bits `[31:16]` are 0 (20_memory.md R80; 10_state.md R40). -/
def padWord (s : State) (p : Fin 8) : Word := (bitsOf 16 (padLevel s p)).setWidth 32

/-! ## Bus transactions -/

/-- What a register of an enabled bank returns (20_memory.md R77 to R80, R84). -/
def regValue (s : State) (p : Fin 8) (r : Reg) : Word :=
  match r with
  | .mode   => s.banks[p].mode
  | .otype  => s.banks[p].otype.setWidth 32
  | .speed  => s.banks[p].speed
  | .pull   => s.banks[p].pull
  | .idata  => padWord s p
  | .odata  => s.banks[p].odata.setWidth 32
  | .setrst => 0
  | .afl    => s.banks[p].afl
  | .afh    => s.banks[p].afh

/-- The word `RegRead(p, r)` returns; of a disabled bank an unspecified one (20_memory.md R87). -/
def regRead (s : State) (p : Fin 8) (r : Reg) : Word :=
  if s.bankEn[p] then regValue s p r else Config.disabledRead s.draws

/-- Bit `n` of the word a read of `IDATA` returns, `(tmp >> n) & 1` (41_pin_io.md R159): for an enabled bank it is the
pad level itself, so that it is known where the pad level is (law `levelRead_eq_bit`). -/
def levelRead (s : State) (p : Fin 8) (n : Nat) : Bool :=
  if s.bankEn[p] then decide (n < 16) && padLevel s p n else (Config.disabledRead s.draws).getLsbD n

/-- The state after `RegRead(p, r)`: a read changes nothing (20_memory.md R86), but the next draw of a free value is a
fresh one wherever this read may have drawn (R80, R87; log 5). -/
def afterRead (s : State) (p : Fin 8) (r : Reg) : State :=
  if r = .idata ∨ s.bankEn[p] = false then { s with draws := s.draws + 1 } else s

/-- The effect of a `SETRST` write on `ODATA`: a pin's set bit sets, else its reset bit clears (20_memory.md R83). -/
def setReset (odata : Half) (v : Word) : Half :=
  bitsOf 16 fun n => if v.getLsbD n then true else if v.getLsbD (n + 16) then false else odata.getLsbD n

/-- The bank after a write of `v` to register `r` (20_memory.md R77 to R79, R81, R83). -/
def writeBank (b : Bank) (r : Reg) (v : Word) : Bank :=
  match r with
  | .mode   => { b with mode := v }
  | .otype  => { b with otype := v.setWidth 16 }
  | .speed  => { b with speed := v }
  | .pull   => { b with pull := v }
  | .idata  => b
  | .odata  => { b with odata := v.setWidth 16 }
  | .setrst => { b with odata := setReset b.odata v }
  | .afl    => { b with afl := v }
  | .afh    => { b with afh := v }

/-- `RegWrite(p, r, v)`; on a disabled bank it changes nothing (20_memory.md R77 to R83, R87). -/
def regWrite (s : State) (p : Fin 8) (r : Reg) (v : Word) : State :=
  if s.bankEn[p] then { s with banks := s.banks.set p (writeBank s.banks[p] r v) } else s

/-! ## Steps of a command -/

/-- Context `c` replaced by `k`. -/
def setContext (s : State) (c : Nat) (k : Context) : State := { s with ctxs := s.ctxs.set c k }

/-- The state after one transaction of a command on bank `p` by a context `k` (40_configuration.md R132, R133;
41_pin_io.md R150, R154, R158); the context itself is `txnContext`. -/
def txnState (s : State) (k : Context) (p : Fin 8) : Txn → State
  | .load r => afterRead s p r
  | .loadLevel _ => afterRead s p .idata
  | .storeUpdated l v => regWrite s p l.reg (updateField k.tmp l.width l.shift v)
  | .storeCleared l => regWrite s p l.reg (clearField k.tmp (fieldMask l.width) l.shift)
  | .storeSet l v => regWrite s p l.reg (setField k.tmp v l.shift)
  | .storeFlipped r n => regWrite s p r (k.tmp ^^^ (1#32 <<< n))
  | .store r v => regWrite s p r v

/-- The context after one transaction of its command: a read latches `tmp`, the read of an `RD` also `rval`
(40_configuration.md R132; 41_pin_io.md R155, R159). -/
def txnContext (s : State) (k : Context) (p : Fin 8) : Txn → Context
  | .load r => { k with tmp := regRead s p r }
  | .loadLevel n =>
    { k with tmp := regRead s p .idata, rval := BitVec.ofBool (levelRead s p n) }
  | .storeUpdated _ _ => k
  | .storeCleared _ => k
  | .storeSet _ _ => k
  | .storeFlipped _ _ => k
  | .store _ _ => k

/-- One step of the command of the executing context: at `ustep = 0` validation, which touches no bank register; at
`ustep = j + 1` transaction `j` of the command's list, the last of which completes it (60_exceptions.md R173;
40_configuration.md R136; 41_pin_io.md R151, R155, R159). -/
def commandStep (v : Verdict) (script : Fin 16 → List Txn) (s : State) : Host.Outcome State Fault Refusal :=
  match s.ctxs[s.cur]? with
  | none => .fault .noSuchContext
  | some k =>
    match v, k.ustep.toNat with
    | .reject st, 0 => .next (setContext s s.cur (completed k st))
    | .reject _, _ + 1 => .fault .noStepLeft
    | .pass _ _, 0 => .next (setContext s s.cur (advanced k))
    | .pass p n, j + 1 =>
      match (script n)[j]? with
      | none => .fault .noStepLeft
      | some t =>
        if j + 1 = (script n).length then
          .next (setContext (txnState s k p t) s.cur (completed (txnContext s k p t) .success))
        else .next (setContext (txnState s k p t) s.cur (advanced (txnContext s k p t)))

/-! ## Issue, reset and the response -/

/-- `Issue(c, w)` on an idle context (10_state.md R56). -/
def issueCommand (s : State) (c : Nat) (w : Word) : Host.Outcome State Fault Refusal :=
  match s.ctxs[c]? with
  | none => .refused .noSuchContext
  | some k => if k.busy then .refused .contextBusy else .next (setContext s c (issued k w))

/-- `rst`: the banks take `INIT_BANK`, every context is idle with unspecified latches, a command in flight is dropped;
the inputs are not the block's to reset (70_reset_and_hazards.md R190, R195, R196). -/
def resetBlock (s : State) : State :=
  { s with banks := s.params.initBank, ctxs := idleContexts s.draws s.ctxs.length, draws := s.draws + 1 }

/-- The response a requester may read: the status while `resp_valid = 1` (10_state.md R56; 70_reset_and_hazards.md
R192). -/
def responseStatus (k : Context) : Option Status := if k.respValid then some k.status else none

/-- The level a requester may read: `rval` after a successful `RD` (10_state.md R56; 41_pin_io.md R160;
60_exceptions.md R182). -/
def responseLevel (k : Context) : Option (BitVec 1) :=
  if k.respValid ∧ k.status = .success ∧ k.cmd.extractLsb 31 30 = 0b11#2 then some k.rval else none

/-! ## The direct port -/

/-- `RegRead(p, r)` by the direct port (10_state.md R63; 20_memory.md R77 to R87). -/
def portRead (s : State) (p : Fin 8) (r : Reg) : State :=
  { afterRead s p r with dpValue := regRead s p r }

/-- A direct-port read by selectors; an invalid one is refused (20_memory.md R85). -/
def directRead (s : State) (p r : Nat) : Host.Outcome State Fault Refusal :=
  match bankOfId p, regOfId r with
  | some p, some r => .next (portRead s p r)
  | _, _ => .refused .noSuchRegister

/-- A direct-port write by selectors; an invalid one is refused (20_memory.md R85). -/
def directWrite (s : State) (p r : Nat) (v : Word) : Host.Outcome State Fault Refusal :=
  match bankOfId p, regOfId r with
  | some p, some r => .next (regWrite s p r v)
  | _, _ => .refused .noSuchRegister

/-- `MemRead(addr, size)` on the platform's bus: `RegRead` of the register at that address, whole words only
(00_scope.md R14; 20_memory.md R72 to R75). -/
def platformRead (s : State) (addr size : Nat) : Host.Outcome State Fault Refusal :=
  if size = 4 then
    match regAt s.params addr with
    | some l => .next (portRead s l.1 l.2)
    | none => .refused (.noRegisterAt addr)
  else .refused .notOneWord

/-- `MemWrite(addr, size, v)` on the platform's bus (00_scope.md R14; 20_memory.md R72 to R75). -/
def platformWrite (s : State) (addr size : Nat) (v : Word) : Host.Outcome State Fault Refusal :=
  if size = 4 then
    match regAt s.params addr with
    | some l => .next (regWrite s l.1 l.2 v)
    | none => .refused (.noRegisterAt addr)
  else .refused .notOneWord

end Sys2Proof.Machine
end

