-- ==== Sys2Proof/Machine/Configuration.lean ====
section
/-! DEFINITION. The configuration family: `INIT` and `INIT.NULL` (40_configuration.md). Each meaning is one step of the
command by the executing context (log 8). -/

namespace Sys2Proof.Machine

/-- `INIT`: one step of Initialize Pin (40_configuration.md R130, R136; with `RMW_SPLIT = 2`, R133). -/
def execInit (port pin : BitVec 8) (mode pull : BitVec 2) (otype : BitVec 1) (speed : BitVec 2) (af : BitVec 4)
    (s : State) : Host.Outcome State Fault Refusal :=
  commandStep (validatePin port pin) (initScript s.params mode pull otype speed af) s

/-- `INIT.NULL`: the command completes with `ST_NULL` and performs no transaction (40_configuration.md R131). -/
def execInitNull (s : State) : Host.Outcome State Fault Refusal :=
  commandStep (.reject .null) (fun _ => []) s

end Sys2Proof.Machine
end

