-- ==== Sys2Proof/Machine/PinIo.lean ====
section
/-! DEFINITION. The pin input/output family: `SET`, `TGL` and `RD` (41_pin_io.md). Each meaning is one step of the command
by the executing context (log 8). -/

namespace Sys2Proof.Machine

/-- `SET`: one step of Set Pin Value (41_pin_io.md R150, R151, R152). -/
def execSet (port pin : BitVec 8) (level : BitVec 2) (s : State) : Host.Outcome State Fault Refusal :=
  commandStep (validateSet port pin level) (setScript level) s

/-- `TGL`: one step of Toggle Pin Value (41_pin_io.md R154, R155). -/
def execTgl (port pin : BitVec 8) (s : State) : Host.Outcome State Fault Refusal :=
  commandStep (validatePin port pin) tglScript s

/-- `RD`: one step of Read Pin Value (41_pin_io.md R158, R159). -/
def execRd (port pin : BitVec 8) (s : State) : Host.Outcome State Fault Refusal :=
  commandStep (validatePin port pin) rdScript s

end Sys2Proof.Machine
end

