-- ==== Sys2Proof/Machine/Dispatch.lean ====
section
/-! DEFINITION. One arm per command (30_encoding.md R100, R104). -/

namespace Sys2Proof.Machine

def exec (i : Instr) (s : State) : Host.Outcome State Fault Refusal :=
  match i with
  | .init port pin mode pull otype speed af => Sys2Proof.Machine.execInit port pin mode pull otype speed af s
  | .initNull => Sys2Proof.Machine.execInitNull s
  | .set port pin level => Sys2Proof.Machine.execSet port pin level s
  | .tgl port pin => Sys2Proof.Machine.execTgl port pin s
  | .rd port pin => Sys2Proof.Machine.execRd port pin s

end Sys2Proof.Machine
end

