-- ==== Sys2Proof/Machine/Schedule.lean ====
section
/-! DEFINITION. Who moves next (20_memory.md R90; 70_reset_and_hazards.md R213). The moves the environment prescribes are
the state's `inputs`; when it prescribes none, only a command in flight can move, and which one is free (log 7). -/

namespace Sys2Proof.Machine

/-- The next move: a step of the command `i` at state `s`, or a move that is no command's, with its outcome. -/
inductive Selection where
  | command (i : Instr) (s : State)
  | done (o : Host.Outcome State Fault Refusal)
deriving Repr

/-- The contexts with a command in flight, in ascending order. -/
def busyContexts (s : State) : List Nat :=
  (List.range s.ctxs.length).filter fun c =>
    match s.ctxs[c]? with
    | some k => k.busy
    | none => false

/-- Context `c` moves: the next step of the command it latched at issue (10_state.md R55, R56). -/
def runContext (s : State) (c : Nat) : Selection :=
  match s.ctxs[c]? with
  | none => .done (.refused .noSuchContext)
  | some k => if k.busy then .command (decodeWord k.cmd) { s with cur := c } else .done (.refused .contextIdle)

/-- A move the environment prescribes, at the state without it. -/
def takeInput (s : State) : Input → Selection
  | .issue c w => .done (issueCommand s c w)
  | .run c => runContext s c
  | .dpRead p r => .done (directRead s p r)
  | .dpWrite p r v => .done (directWrite s p r v)
  | .busRead addr size => .done (platformRead s addr size)
  | .busWrite addr size v => .done (platformWrite s addr size v)
  | .bankEn p enabled => .done (.next { s with bankEn := s.bankEn.set p enabled })
  | .rst => .done (.next (resetBlock s))

/-- The next move. With nothing prescribed: a run with every context idle is over (70_reset_and_hazards.md R213), the
only busy context moves, and of several any may (20_memory.md R90; log 7). -/
def nextMove (s : State) : Selection :=
  match s.inputs with
  | x :: rest => takeInput { s with inputs := rest } x
  | [] =>
    match busyContexts s with
    | [] => .done (.next s)
    | [c] => runContext s c
    | c :: d :: rest =>
      runContext { s with draws := s.draws + 1 } ((c :: d :: rest).getD (Config.pick s.draws % (rest.length + 2)) c)

/-- Word `w` issued on context 0, which then moves next (10_state.md R56). -/
def presentCommand (s : State) (w : Word) : State :=
  { s with ctxs := s.ctxs.modify 0 (fun k => issued k w), inputs := .run 0 :: s.inputs }


end Sys2Proof.Machine
end

