-- ==== Sys2Proof/Machine/Step.lean ====
section
/-! DEFINITION. One step of the machine: the next move in the total order of all agents (20_memory.md R90). -/

namespace Sys2Proof.Machine

/-- One step (70_reset_and_hazards.md R213): a step of a busy context's command, or a move of another agent. -/
def step (s : State) : Host.Outcome State Fault Refusal :=
  match nextMove s with
  | .command i t => exec i t
  | .done o => o

/-- `s` with the command of bits `w` (bits from `nbits` on zero) issued on context 0, which moves next (log 12). -/
def State.withFetchWord (s : State) (nbits w : Nat) : State := presentCommand s (BitVec.ofNat 32 (w % 2 ^ nbits))

end Sys2Proof.Machine
end

