-- ==== Sys2Proof/Machine/Assembly.lean ====
section
/-! DEFINITION. The assembler notation of 30_encoding.md R116 and R117: from a line's command name and operands to the
command. Names stand for the codes of R108 to R113, so the assembler takes the parameters. -/

namespace Sys2Proof.Machine

/-- The value of an operand: a name of the list, or a number below `limit` (30_encoding.md R116). -/
def operandValue (names : List (String × Nat)) (limit : Nat) : AsmOperand → Option Nat
  | .name t => names.lookup t
  | .num v => if v < limit then some v else none

/-- Bank letters (30_encoding.md R113, R116). -/
def portNames : List (String × Nat) :=
  [("A", 0), ("B", 1), ("C", 2), ("D", 3), ("E", 4), ("F", 5), ("G", 6), ("H", 7)]

/-- Mode names (30_encoding.md R108, R116). -/
def modeNames (P : Params) : List (String × Nat) :=
  [("IN", P.modeInput.toNat), ("OUT", Config.modeOutput.toNat), ("AF", P.modeAF.toNat), ("AN", P.modeAnalog.toNat)]

/-- Pull names (30_encoding.md R109, R116). -/
def pullNames (P : Params) : List (String × Nat) :=
  [("NONE", Config.pullNone.toNat), ("UP", P.pullUp.toNat), ("DOWN", P.pullDown.toNat)]

/-- Output-type names (30_encoding.md R110, R116). -/
def otypeNames : List (String × Nat) := [("PP", Config.otypePP.toNat), ("OD", Config.otypeOD.toNat)]

/-- Speed names (30_encoding.md R111, R116). -/
def speedNames (P : Params) : List (String × Nat) :=
  [("LOW", P.speedLow.toNat), ("MED", P.speedMedium.toNat), ("HIGH", P.speedHigh.toNat),
   ("VHIGH", P.speedVeryHigh.toNat)]

/-- Level names (30_encoding.md R112, R116). -/
def levelNames : List (String × Nat) := [("LOW", Config.levelLow.toNat), ("HIGH", Config.levelHigh.toNat)]

/-- The operands of `INIT`, in the order of 30_encoding.md R116. -/
def assembleInit (P : Params) : List AsmOperand → Option Instr
  | [port, pin, mode, pull, otype, speed, af] =>
    match operandValue portNames 256 port, operandValue [] 256 pin, operandValue (modeNames P) 4 mode,
        operandValue (pullNames P) 4 pull, operandValue otypeNames 2 otype, operandValue (speedNames P) 4 speed,
        operandValue [] 16 af with
    | some port, some pin, some mode, some pull, some otype, some speed, some af =>
      some (.init (.ofNat 8 port) (.ofNat 8 pin) (.ofNat 2 mode) (.ofNat 2 pull) (.ofNat 1 otype) (.ofNat 2 speed)
        (.ofNat 4 af))
    | _, _, _, _, _, _, _ => none
  | _ => none

/-- The operands of `SET`, in the order of 30_encoding.md R116. -/
def assembleSet : List AsmOperand → Option Instr
  | [port, pin, level] =>
    match operandValue portNames 256 port, operandValue [] 256 pin, operandValue levelNames 4 level with
    | some port, some pin, some level => some (.set (.ofNat 8 port) (.ofNat 8 pin) (.ofNat 2 level))
    | _, _, _ => none
  | _ => none

/-- The operands of `TGL` and `RD`, in the order of 30_encoding.md R116. -/
def assemblePin (make : BitVec 8 → BitVec 8 → Instr) : List AsmOperand → Option Instr
  | [port, pin] =>
    match operandValue portNames 256 port, operandValue [] 256 pin with
    | some port, some pin => some (make (.ofNat 8 port) (.ofNat 8 pin))
    | _, _ => none
  | _ => none

/-- The command of a line (30_encoding.md R116); `INIT.NULL` takes no operand (R117). -/
def assemble (P : Params) (l : AsmLine) : Option Instr :=
  if l.command = "INIT" then assembleInit P l.operands
  else if l.command = "INIT.NULL" then (if l.operands = [] then some .initNull else none)
  else if l.command = "SET" then assembleSet l.operands
  else if l.command = "TGL" then assemblePin .tgl l.operands
  else if l.command = "RD" then assemblePin .rd l.operands
  else none

/-- The word of a line: the canonical encoding of its command (30_encoding.md R105, R118). -/
def assembleWord (P : Params) (l : AsmLine) : Option Word := (assemble P l).map encode

end Sys2Proof.Machine
end

