-- ==== Sys2Proof/Safety.lean ====
section
/-! DEFINITION. What counts as a sound state and a completed command, in the terms the statements use. -/

namespace Sys2Proof.Machine

/-- The bus transactions of a valid command on pin `n` (20_memory.md R71). -/
def scriptOf (P : Params) (n : Fin 16) : Instr → List Txn
  | .init _ _ mode pull otype speed af => initScript P mode pull otype speed af n
  | .initNull => []
  | .set _ _ level => setScript level n
  | .tgl _ _ => tglScript n
  | .rd _ _ => rdScript n

/-- The number of steps a command takes: one of validation and one per transaction (40_configuration.md R136, R142). -/
def stepCount (P : Params) (i : Instr) : Nat :=
  match validate i with
  | .reject _ => 1
  | .pass _ n => 1 + (scriptOf P n i).length

/-- A context is sound: with a command in flight no response is presented (10_state.md R55) and the step index is that of
a step the command has (R57). -/
def contextSound (P : Params) (k : Context) : Bool :=
  !k.busy || (!k.respValid && decide (k.ustep.toNat < stepCount P (decodeWord k.cmd)))

/-- A state is sound: there is a context (00_scope.md R8, `NCTX` at least 1) and every context is sound. -/
def stateSound (s : State) : Bool := decide (0 < s.ctxs.length) && s.ctxs.all (contextSound s.params)

/-- `k` consecutive steps of command `i` by the executing context, no other agent moving between them (the premise of
70_reset_and_hazards.md R201). -/
def execFor : Nat → Instr → State → Host.Outcome State Fault Refusal
  | 0, _, s => .next s
  | k + 1, i, s =>
    match exec i s with
    | .next t => execFor k i t
    | .fault r => .fault r
    | .refused r => .refused r

/-- Context `k` is the executing one, with a command issued and not yet validated (10_state.md R57). -/
abbrev atStart (s : State) (k : Context) : Prop := s.ctxs[s.cur]? = some k ∧ k.busy = true ∧ k.ustep = 0

/-- A bank after a valid `INIT` of pin `n` without interference (40_configuration.md R144). -/
def initNet (P : Params) (b : Bank) (mode pull : BitVec 2) (otype : BitVec 1) (speed : BitVec 2) (af : BitVec 4)
    (n : Fin 16) : Bank :=
  { b with
    mode  := updateField b.mode 2 (2 * n.val) (mode.setWidth 32)
    pull  := updateField b.pull 2 (2 * n.val) (pull.setWidth 32)
    otype := if isDriven P mode then (updateField (b.otype.setWidth 32) 1 n.val (otype.setWidth 32)).setWidth 16 else b.otype
    speed := if isDriven P mode then updateField b.speed 2 (2 * n.val) (speed.setWidth 32) else b.speed
    afl   := if isAF P mode ∧ n.val < 8 then updateField b.afl 4 (4 * n.val) (af.setWidth 32) else b.afl
    afh   := if isAF P mode ∧ 8 ≤ n.val then updateField b.afh 4 (4 * (n.val - 8)) (af.setWidth 32) else b.afh }

end Sys2Proof.Machine
end

