-- ==== Sys2Proof/Certificates/Slice0/Obligations.lean ====
section
/-! DEFINITION. The statements for the provers, from the numbered rules of spec/. A hypothesis `s.ctxs[s.cur]? = some k`
names the executing context; `p` and `n` are the valid bank and pin of a command's `port` and `pin`. The fields `inputs`
and `cur` (log 7), `draws` (log 5) and `dpValue` (log 14) are the model's own, wherever a statement speaks of them. -/

open Sys2Proof Sys2Proof.Machine

/-! ## Encoding -/

/-- The five worked encodings of 30_encoding.md section 7 (R118, derived there from R102), assembled, decoded and, for the first, field by field. -/
def Obligations.WorkedEncodingsAssembleAndDecode : Prop :=
  (∀ P : Params,
    assembleWord P ⟨"INIT", [.name "A", .num 5, .name "OUT", .name "NONE", .name "PP", .num 3, .num 0]⟩
      = some 0x20610005#32 ∧
    assembleWord P ⟨"SET", [.name "A", .num 5, .name "HIGH"]⟩ = some 0x48000005#32 ∧
    assembleWord P ⟨"TGL", [.name "A", .num 5]⟩ = some 0x80000005#32 ∧
    assembleWord P ⟨"RD", [.name "A", .num 5]⟩ = some 0xC0000005#32 ∧
    assembleWord P ⟨"INIT.NULL", []⟩ = some 0x00000000#32) ∧
  decodeWord 0x20610005#32 = .init 0 5 0b01 0b00 0 0b11 0 ∧
  decodeWord 0x48000005#32 = .set 0 5 1 ∧
  decodeWord 0x80000005#32 = .tgl 0 5 ∧
  decodeWord 0xC0000005#32 = .rd 0 5 ∧
  decodeWord 0x00000000#32 = .initNull ∧
  cmdOfWord 0x20610005#32 =
    { op := 0b00, dv := 1, level := 0, af := 0, speed := 0b11, otype := 0, pull := 0, mode := 0b01, port := 0,
      pin := 5 }

/-- 30_encoding.md R102, R104, R105, R119: the canonical word of every command decodes to that command. -/
def Obligations.DecodeUndoesEncode : Prop :=
  ∀ i : Instr, decodeWord (encode i) = i

/-- 30_encoding.md R105: re-encoding a word clears exactly the fields its command ignores, and words that agree on the
fields used are the same command. -/
def Obligations.IgnoredFieldsHaveNoEffect : Prop :=
  (∀ w : Word, encode (decodeWord w) = w &&& usedMask (decodeWord w)) ∧
  (∀ w w' : Word, w &&& usedMask (decodeWord w) = w' &&& usedMask (decodeWord w) → decodeWord w' = decodeWord w)

/-- 30_encoding.md R104: the rows of the opcode map, in the source's order; every word is the command of exactly one
row, and that row is the one the decoder takes. -/
def Obligations.OpcodeRowsPartitionAllWords : Prop :=
  opcodeMap.map (fun row => (row.mnemonic, row.pattern, row.mask)) =
    [("INIT", 0x20000000#32, 0xE0000000#32), ("INIT.NULL", 0x00000000#32, 0xE0000000#32),
     ("SET", 0x40000000#32, 0xC0000000#32), ("TGL", 0x80000000#32, 0xC0000000#32),
     ("RD", 0xC0000000#32, 0xC0000000#32)] ∧
  ∀ w : Word, ∃ row ∈ opcodeMap, row.mnemonic = mnemonic (decodeWord w) ∧ w &&& row.mask = row.pattern ∧
    ∀ other ∈ opcodeMap, w &&& other.mask = other.pattern → other = row

/-- 30_encoding.md R102, R119: the record of a word holds every bit of it, each field at its place. -/
def Obligations.CommandRecordHoldsEveryBit : Prop :=
  (∀ w : Word, wordOfCmd (cmdOfWord w) = w) ∧ (∀ c : Cmd, cmdOfWord (wordOfCmd c) = c)

/-! ## Field primitives -/

/-- 00_scope.md section 6 (R18, derived there from R12 and R15): the six laws of field update and bit flip. -/
def Obligations.FieldUpdateLaws : Prop :=
  (∀ (r v v1 v2 : Word) (w s : Nat), (w = 1 ∨ w = 2 ∨ w = 4) → s + w ≤ 32 → v.toNat < 2 ^ w → v1.toNat < 2 ^ w →
      v2.toNat < 2 ^ w →
    getField (updateField r w s v) w s = v ∧
    (∀ w2 s2 : Nat, (w2 = 1 ∨ w2 = 2 ∨ w2 = 4) → s2 + w2 ≤ 32 → (s2 + w2 ≤ s ∨ s + w ≤ s2) →
      getField (updateField r w s v) w2 s2 = getField r w2 s2) ∧
    updateField (updateField r w s v1) w s v2 = updateField r w s v2 ∧
    updateField r w s (getField r w s) = r) ∧
  (∀ (r : Word) (n : Nat), n ≤ 31 →
    (r ^^^ (1#32 <<< n)) ^^^ (1#32 <<< n) = r ∧
    ((r ^^^ (1#32 <<< n)) >>> n) &&& 1#32 = 1#32 - ((r >>> n) &&& 1#32))

/-- 00_scope.md R17, 10_state.md R42: every field of every pin lies inside its register, the alternate-function field
in `AFL` for pins 0..7 and in `AFH` for pins 8..15. -/
def Obligations.FieldPlacesFitTheirRegisters : Prop :=
  (∀ (f : Field) (n : Fin 16), (locate f n).shift + (locate f n).width ≤ 32) ∧
  (∀ n : Fin 16, n.val < 8 → locate .af n = { reg := .afl, width := 4, shift := 4 * n.val }) ∧
  (∀ n : Fin 16, 8 ≤ n.val → locate .af n = { reg := .afh, width := 4, shift := 4 * (n.val - 8) })

/-! ## Registers and transactions -/

/-- 20_memory.md R77: the five 32-bit registers return and store all 32 bits. -/
def Obligations.FullRegistersReadAndStoreAllBits : Prop :=
  ∀ (s : State) (p : Fin 8) (v : Word), s.bankEn[p] = true →
    regRead s p .mode = s.banks[p].mode ∧
    regRead s p .speed = s.banks[p].speed ∧
    regRead s p .pull = s.banks[p].pull ∧
    regRead s p .afl = s.banks[p].afl ∧
    regRead s p .afh = s.banks[p].afh ∧
    regWrite s p .mode v = { s with banks := s.banks.set p { s.banks[p] with mode := v } } ∧
    regWrite s p .speed v = { s with banks := s.banks.set p { s.banks[p] with speed := v } } ∧
    regWrite s p .pull v = { s with banks := s.banks.set p { s.banks[p] with pull := v } } ∧
    regWrite s p .afl v = { s with banks := s.banks.set p { s.banks[p] with afl := v } } ∧
    regWrite s p .afh v = { s with banks := s.banks.set p { s.banks[p] with afh := v } }

/-- 20_memory.md R78, R79: `OTYPE` and `ODATA` return their half zero-extended and store the low half of what is
written; the pad of an enabled push-pull output shows the new `ODATA` bit at once. -/
def Obligations.HalfRegistersDiscardTheUpperHalf : Prop :=
  ∀ (s : State) (p : Fin 8) (v : Word), s.bankEn[p] = true →
    regRead s p .otype = s.banks[p].otype.setWidth 32 ∧
    regRead s p .odata = s.banks[p].odata.setWidth 32 ∧
    regWrite s p .otype v = { s with banks := s.banks.set p { s.banks[p] with otype := v.extractLsb' 0 16 } } ∧
    regWrite s p .odata v = { s with banks := s.banks.set p { s.banks[p] with odata := v.extractLsb' 0 16 } } ∧
    (∀ n : Fin 16, s.banks[p].mode.extractLsb' (2 * n.val) 2 = 0b01#2 → s.banks[p].otype.getLsbD n.val = false →
      padLevel (regWrite s p .odata v) p n.val = v.getLsbD n.val)

/-- 20_memory.md R80, with 10_state.md R50 written out: bit `n` of `IDATA` is the `ODATA` bit of an enabled push-pull
output and otherwise a fresh draw of `ENV`; bits [31:16] are 0. That a draw is the free `Config.env` at the counter
`draws`, and that every read of `IDATA` advances the counter (the last clause), even when every pin is driven, is the
model's choice (DESIGN CHOICE, log 5). -/
def Obligations.IdataShowsThePadLevels : Prop :=
  ∀ (s : State) (p : Fin 8), s.bankEn[p] = true →
    (∀ n : Nat, n < 16 →
      (regRead s p .idata).getLsbD n =
        (if s.banks[p].mode.getLsbD (2 * n) = true ∧ s.banks[p].mode.getLsbD (2 * n + 1) = false ∧
            s.banks[p].otype.getLsbD n = false
         then s.banks[p].odata.getLsbD n else Config.env s.draws p n)) ∧
    (∀ n : Nat, 16 ≤ n → (regRead s p .idata).getLsbD n = false) ∧
    afterRead s p .idata = { s with draws := s.draws + 1 }

/-- 20_memory.md R81, R84: a write to `IDATA` changes no state; a read of `SETRST` returns 0 and changes nothing, and no
command reads it. -/
def Obligations.IdataIgnoresWritesSetrstReadsZero : Prop :=
  (∀ (s : State) (p : Fin 8) (v : Word), regWrite s p .idata v = s) ∧
  (∀ (s : State) (p : Fin 8), s.bankEn[p] = true → regRead s p .setrst = 0 ∧ afterRead s p .setrst = s) ∧
  (∀ (P : Params) (n : Fin 16) (i : Instr), Txn.load .setrst ∉ scriptOf P n i)

/-- 20_memory.md R83: one write to `SETRST` sets, clears or leaves each `ODATA` bit, the set half winning (decided in R83,
D18), and stores nothing else; no command writes both bits of a pin. -/
def Obligations.SetrstWriteActsOnOdata : Prop :=
  (∀ (s : State) (p : Fin 8) (v : Word), s.bankEn[p] = true →
    (∃ o : Half, regWrite s p .setrst v = { s with banks := s.banks.set p { s.banks[p] with odata := o } } ∧
      ∀ n : Nat, n < 16 →
        (v.getLsbD n = true → o.getLsbD n = true) ∧
        (v.getLsbD n = false → v.getLsbD (n + 16) = true → o.getLsbD n = false) ∧
        (v.getLsbD n = false → v.getLsbD (n + 16) = false → o.getLsbD n = s.banks[p].odata.getLsbD n))) ∧
  (∀ (P : Params) (n : Fin 16) (i : Instr) (v : Word), Txn.store .setrst v ∈ scriptOf P n i →
    ∀ m : Nat, m < 16 → ¬(v.getLsbD m = true ∧ v.getLsbD (m + 16) = true))

/-- 20_memory.md R86: writing the same value twice to any register is the same as writing it once. -/
def Obligations.WritingTwiceIsWritingOnce : Prop :=
  ∀ (s : State) (p : Fin 8) (r : Reg) (v : Word), regWrite (regWrite s p r v) p r v = regWrite s p r v

/-- 20_memory.md R87: on a disabled bank a write changes nothing, a read changes no state of the spec's, and a command's
step leaves the banks alone while its context goes on exactly as on an enabled bank. R87 leaves the word a read returns
unspecified: that it is the free `Config.disabledRead` at the counter `draws`, and that the counter then advances, is the
model's choice (DESIGN CHOICE, logs 5 and 6). -/
def Obligations.DisabledBankIgnoresCommands : Prop :=
  ∀ (s : State) (p : Fin 8), s.bankEn[p] = false →
    (∀ (r : Reg) (v : Word), regWrite s p r v = s) ∧
    (∀ r : Reg, regRead s p r = Config.disabledRead s.draws ∧ afterRead s p r = { s with draws := s.draws + 1 }) ∧
    (∀ (i : Instr) (n : Fin 16) (t : State), validate i = .pass p n → exec i s = .next t →
      t.banks = s.banks ∧
      ∃ (u : State) (k k' : Context),
        exec i { s with bankEn := s.bankEn.set p true } = .next u ∧
        t.ctxs[s.cur]? = some k ∧ u.ctxs[s.cur]? = some k' ∧
        k.busy = k'.busy ∧ k.status = k'.status ∧ k.respValid = k'.respValid ∧ k.ustep = k'.ustep)

/-- 20_memory.md R71: the registers each command reads (`true`) and writes (`false`), in order, for both values of
`RMW_SPLIT`. -/
def Obligations.CommandsReachOnlyTheTabledRegisters : Prop :=
  ∀ (P : Params) (n : Fin 16),
    let kinds : Instr → List (Bool × Reg) := fun i => (scriptOf P n i).map fun t =>
      match t with
      | .load r => (true, r)
      | .loadLevel _ => (true, .idata)
      | .storeUpdated l _ => (false, l.reg)
      | .storeCleared l => (false, l.reg)
      | .storeSet l _ => (false, l.reg)
      | .storeFlipped r _ => (false, r)
      | .store r _ => (false, r)
    let pair : Reg → List (Bool × Reg) := fun r =>
      match P.rmwSplit with
      | .one => [(true, r), (false, r)]
      | .two => [(true, r), (false, r), (true, r), (false, r)]
    (∀ port pin mode pull otype speed af, mode ≠ 0b01#2 → mode ≠ P.modeAF →
      kinds (.init port pin mode pull otype speed af) = pair .mode ++ pair .pull) ∧
    (∀ port pin mode pull otype speed af, mode = 0b01#2 → mode ≠ P.modeAF →
      kinds (.init port pin mode pull otype speed af) = pair .mode ++ pair .pull ++ pair .otype ++ pair .speed) ∧
    (∀ port pin mode pull otype speed af, mode = P.modeAF →
      kinds (.init port pin mode pull otype speed af) =
        pair .mode ++ pair .pull ++ pair .otype ++ pair .speed ++ pair (if n.val < 8 then .afl else .afh)) ∧
    kinds .initNull = [] ∧
    (∀ port pin level, kinds (.set port pin level) = [(false, .setrst)]) ∧
    (∀ port pin, kinds (.tgl port pin) = [(true, .odata), (false, .odata)]) ∧
    (∀ port pin, kinds (.rd port pin) = [(true, .idata)])

/-- 20_memory.md R76: the bytes of a register on a byte-addressed bus, least significant first. -/
def Obligations.ByteViewIsLittleEndian : Prop :=
  ∀ v : Word, (byteOfReg v 3 ++ byteOfReg v 2 ++ byteOfReg v 1 ++ byteOfReg v 0 : BitVec 32) = v

/-! ## The commands, step by step -/

/-- 40_configuration.md R131: `INIT.NULL` completes with `ST_NULL` at its first step and writes nothing but the status;
any word with `OP = 0b00` and `DV = 0` is this command, and its status is not that of an invalid identifier. -/
def Obligations.InitNullCompletesWithNull : Prop :=
  (∀ (s : State) (k : Context), s.ctxs[s.cur]? = some k → k.ustep = 0 →
    exec .initNull s =
      .next { s with ctxs := s.ctxs.set s.cur { k with status := .null, busy := false, respValid := true } }) ∧
  (∀ w : Word, w.extractLsb 31 30 = 0b00#2 → w.getLsbD 29 = false → decodeWord w = .initNull) ∧
  Status.code .null ≠ Status.code .fail

/-- 60_exceptions.md R172, R173: at its first step every command is judged on its fields alone. An invalid one completes
with its failure status and changes nothing else; a valid one goes on to its first transaction. -/
def Obligations.ValidationDecidesTheFirstStep : Prop :=
  ∀ (s : State) (k : Context), s.ctxs[s.cur]? = some k → k.ustep = 0 →
    let failed : Host.Outcome State Fault Refusal :=
      .next { s with ctxs := s.ctxs.set s.cur { k with status := .fail, busy := false, respValid := true } }
    let passed : Host.Outcome State Fault Refusal := .next { s with ctxs := s.ctxs.set s.cur { k with ustep := 1 } }
    (∀ port pin mode pull otype speed af,
      exec (.init port pin mode pull otype speed af) s =
        if 8 ≤ port.toNat ∨ 16 ≤ pin.toNat then failed else passed) ∧
    (∀ port pin level,
      exec (.set port pin level) s =
        if 8 ≤ port.toNat ∨ 16 ≤ pin.toNat ∨ 2 ≤ level.toNat then failed else passed) ∧
    (∀ port pin, exec (.tgl port pin) s = if 8 ≤ port.toNat ∨ 16 ≤ pin.toNat then failed else passed) ∧
    (∀ port pin, exec (.rd port pin) s = if 8 ≤ port.toNat ∨ 16 ≤ pin.toNat then failed else passed)

/-- 40_configuration.md R136, `RMW_SPLIT = 1`: the ten transactions of a valid `INIT`, row by row, each step answering
the next state the row gives. -/
def Obligations.InitStepList : Prop :=
  ∀ (s : State) (k : Context) (port pin : BitVec 8) (mode pull : BitVec 2) (otype : BitVec 1) (speed : BitVec 2)
    (af : BitVec 4) (p : Fin 8) (n : Fin 16),
    s.ctxs[s.cur]? = some k → s.params.rmwSplit = .one → port.toNat = p.val → pin.toNat = n.val →
    let run := exec (.init port pin mode pull otype speed af) s
    let driven : Prop := mode = 0b01#2 ∨ mode = s.params.modeAF
    let afReg : Reg := if n.val < 8 then .afl else .afh
    let load : Reg → BitVec 5 → Host.Outcome State Fault Refusal := fun r u =>
      .next (setContext (afterRead s p r) s.cur { k with tmp := regRead s p r, ustep := u })
    let store : Reg → Nat → Nat → Word → Context → Host.Outcome State Fault Refusal := fun r w sh v k' =>
      .next (setContext (regWrite s p r (updateField k.tmp w sh v)) s.cur k')
    let done : Context := { k with status := .success, busy := false, respValid := true }
    (k.ustep = 0 → run = .next (setContext s s.cur { k with ustep := 1 })) ∧
    (k.ustep = 1 → run = load .mode 2) ∧
    (k.ustep = 2 → run = store .mode 2 (2 * n.val) (mode.setWidth 32) { k with ustep := 3 }) ∧
    (k.ustep = 3 → run = load .pull 4) ∧
    (k.ustep = 4 → ¬driven → run = store .pull 2 (2 * n.val) (pull.setWidth 32) done) ∧
    (k.ustep = 4 → driven → run = store .pull 2 (2 * n.val) (pull.setWidth 32) { k with ustep := 5 }) ∧
    (k.ustep = 5 → driven → run = load .otype 6) ∧
    (k.ustep = 6 → driven → run = store .otype 1 n.val (otype.setWidth 32) { k with ustep := 7 }) ∧
    (k.ustep = 7 → driven → run = load .speed 8) ∧
    (k.ustep = 8 → driven → mode ≠ s.params.modeAF →
      run = store .speed 2 (2 * n.val) (speed.setWidth 32) done) ∧
    (k.ustep = 8 → mode = s.params.modeAF →
      run = store .speed 2 (2 * n.val) (speed.setWidth 32) { k with ustep := 9 }) ∧
    (k.ustep = 9 → mode = s.params.modeAF → run = load afReg 10) ∧
    (k.ustep = 10 → mode = s.params.modeAF →
      run = store afReg 4 (n.val % 8 * 4) (af.setWidth 32) done)

/-- 40_configuration.md R133 and the last sentence but one of R136, `RMW_SPLIT = 2`: the `f`-th field of a valid `INIT`
takes the four steps read, clear, read, or-in; the or-in of the last field completes the command. -/
def Obligations.InitSplitStepList : Prop :=
  ∀ (s : State) (k : Context) (port pin : BitVec 8) (mode pull : BitVec 2) (otype : BitVec 1) (speed : BitVec 2)
    (af : BitVec 4) (p : Fin 8) (n : Fin 16) (f : Nat) (r : Reg) (w sh : Nat) (v : Word),
    s.ctxs[s.cur]? = some k → s.params.rmwSplit = .two → port.toNat = p.val → pin.toNat = n.val →
    let fields : List (Reg × Nat × Nat × Word) :=
      [(.mode, 2, 2 * n.val, mode.setWidth 32), (.pull, 2, 2 * n.val, pull.setWidth 32)] ++
      (if mode = 0b01#2 ∨ mode = s.params.modeAF then
        [(.otype, 1, n.val, otype.setWidth 32), (.speed, 2, 2 * n.val, speed.setWidth 32)] else []) ++
      (if mode = s.params.modeAF then
        [(if n.val < 8 then .afl else .afh, 4, n.val % 8 * 4, af.setWidth 32)] else [])
    let run := exec (.init port pin mode pull otype speed af) s
    fields[f]? = some (r, w, sh, v) →
    (k.ustep.toNat = 4 * f + 1 →
      run = .next (setContext (afterRead s p r) s.cur { k with tmp := regRead s p r, ustep := k.ustep + 1 })) ∧
    (k.ustep.toNat = 4 * f + 2 →
      run = .next (setContext (regWrite s p r (clearField k.tmp (fieldMask w) sh)) s.cur
        { k with ustep := k.ustep + 1 })) ∧
    (k.ustep.toNat = 4 * f + 3 →
      run = .next (setContext (afterRead s p r) s.cur { k with tmp := regRead s p r, ustep := k.ustep + 1 })) ∧
    (k.ustep.toNat = 4 * f + 4 →
      run = .next (setContext (regWrite s p r (setField k.tmp v sh)) s.cur
        (if f + 1 = fields.length then { k with status := .success, busy := false, respValid := true }
         else { k with ustep := k.ustep + 1 })))

/-- 70_reset_and_hazards.md R208: with `RMW_SPLIT = 2` the pin's mode field of an enabled bank is all zeros after the
clearing write, and no other bit of `MODE` differs from the value read. -/
def Obligations.SplitUpdateShowsAZeroField : Prop :=
  ∀ (s : State) (k : Context) (port pin : BitVec 8) (mode pull : BitVec 2) (otype : BitVec 1) (speed : BitVec 2)
    (af : BitVec 4) (p : Fin 8) (n : Fin 16),
    s.ctxs[s.cur]? = some k → s.params.rmwSplit = .two → port.toNat = p.val → pin.toNat = n.val → k.ustep = 2 →
    s.bankEn[p] = true →
    ∃ t, exec (.init port pin mode pull otype speed af) s = .next t ∧
      t.banks[p].mode.getLsbD (2 * n.val) = false ∧ t.banks[p].mode.getLsbD (2 * n.val + 1) = false ∧
      ∀ b : Nat, b ≠ 2 * n.val → b ≠ 2 * n.val + 1 → t.banks[p].mode.getLsbD b = k.tmp.getLsbD b

/-- 41_pin_io.md R151: the two rows of `SET`; one transaction, a write, of a word with exactly one bit set. -/
def Obligations.SetStepList : Prop :=
  (∀ (s : State) (k : Context) (port pin : BitVec 8) (level : BitVec 2), s.ctxs[s.cur]? = some k → k.ustep = 0 →
    (8 ≤ port.toNat ∨ 16 ≤ pin.toNat ∨ 2 ≤ level.toNat →
      exec (.set port pin level) s =
        .next (setContext s s.cur { k with status := .fail, busy := false, respValid := true })) ∧
    (port.toNat < 8 → pin.toNat < 16 → level.toNat < 2 →
      exec (.set port pin level) s = .next (setContext s s.cur { k with ustep := 1 }))) ∧
  (∀ (s : State) (k : Context) (port pin : BitVec 8) (level : BitVec 2) (p : Fin 8) (n : Fin 16),
    s.ctxs[s.cur]? = some k → port.toNat = p.val → pin.toNat = n.val → level.toNat < 2 → k.ustep = 1 →
      exec (.set port pin level) s =
        .next (setContext
          (regWrite s p .setrst (if level = 1#2 then 1#32 <<< n.val else 1#32 <<< (n.val + 16))) s.cur
          { k with status := .success, busy := false, respValid := true })) ∧
  (∀ (level : BitVec 2) (n : Fin 16), ∃ w b, setScript level n = [.store .setrst w] ∧ b < 32 ∧
    ∀ i : Nat, w.getLsbD i = true ↔ i = b)

/-- 41_pin_io.md R155: the three rows of `TGL`; two transactions. The write uses the value latched by the read, whatever
the bank holds by then. -/
def Obligations.TglStepList : Prop :=
  (∀ (s : State) (k : Context) (port pin : BitVec 8), s.ctxs[s.cur]? = some k → k.ustep = 0 →
    (8 ≤ port.toNat ∨ 16 ≤ pin.toNat →
      exec (.tgl port pin) s =
        .next (setContext s s.cur { k with status := .fail, busy := false, respValid := true })) ∧
    (port.toNat < 8 → pin.toNat < 16 →
      exec (.tgl port pin) s = .next (setContext s s.cur { k with ustep := 1 }))) ∧
  (∀ (s : State) (k : Context) (port pin : BitVec 8) (p : Fin 8) (n : Fin 16),
    s.ctxs[s.cur]? = some k → port.toNat = p.val → pin.toNat = n.val →
    (k.ustep = 1 →
      exec (.tgl port pin) s =
        .next (setContext (afterRead s p .odata) s.cur { k with tmp := regRead s p .odata, ustep := 2 })) ∧
    (k.ustep = 2 →
      exec (.tgl port pin) s =
        .next (setContext (regWrite s p .odata (k.tmp ^^^ (1#32 <<< n.val))) s.cur
          { k with status := .success, busy := false, respValid := true }))) ∧
  (∀ n : Fin 16, (tglScript n).length = 2)

/-- 41_pin_io.md R159: the two rows of `RD`; one transaction, a read. -/
def Obligations.RdStepList : Prop :=
  (∀ (s : State) (k : Context) (port pin : BitVec 8), s.ctxs[s.cur]? = some k → k.ustep = 0 →
    (8 ≤ port.toNat ∨ 16 ≤ pin.toNat →
      exec (.rd port pin) s =
        .next (setContext s s.cur { k with status := .fail, busy := false, respValid := true })) ∧
    (port.toNat < 8 → pin.toNat < 16 →
      exec (.rd port pin) s = .next (setContext s s.cur { k with ustep := 1 }))) ∧
  (∀ (s : State) (k : Context) (port pin : BitVec 8) (p : Fin 8) (n : Fin 16),
    s.ctxs[s.cur]? = some k → port.toNat = p.val → pin.toNat = n.val → k.ustep = 1 →
      exec (.rd port pin) s =
        .next (setContext (afterRead s p .idata) s.cur
          { k with tmp := regRead s p .idata, rval := ((regRead s p .idata >>> n.val) &&& 1#32).setWidth 1,
                   status := .success, busy := false, respValid := true })) ∧
  (∀ n : Fin 16, (rdScript n).length = 1)

/-! ## Whole commands without interference -/

/-- 41_pin_io.md R150: a valid `SET` run alone makes the pin's `ODATA` bit equal to the level and changes nothing else of
the banks; it writes neither `tmp` nor `rval`. -/
def Obligations.SetDrivesExactlyOneBit : Prop :=
  ∀ (s : State) (k : Context) (port pin : BitVec 8) (level : BitVec 2) (p : Fin 8) (n : Fin 16),
    atStart s k → port.toNat = p.val → pin.toNat = n.val → level.toNat < 2 → s.bankEn[p] = true →
    ∃ o : Half,
      execFor 2 (.set port pin level) s =
        .next { s with
          banks := s.banks.set p { s.banks[p] with odata := o },
          ctxs := s.ctxs.set s.cur { k with ustep := 1, status := .success, busy := false, respValid := true } } ∧
      ∀ m : Nat, m < 16 →
        o.getLsbD m = if m = n.val then level.getLsbD 0 else s.banks[p].odata.getLsbD m

/-- 41_pin_io.md R154: a valid `TGL` run alone flips the pin's `ODATA` bit and changes nothing else of the banks; it does
not write `rval`. -/
def Obligations.TglFlipsExactlyOneBit : Prop :=
  ∀ (s : State) (k : Context) (port pin : BitVec 8) (p : Fin 8) (n : Fin 16),
    atStart s k → port.toNat = p.val → pin.toNat = n.val → s.bankEn[p] = true →
    ∃ o : Half,
      execFor 3 (.tgl port pin) s =
        .next { s with
          banks := s.banks.set p { s.banks[p] with odata := o },
          ctxs := s.ctxs.set s.cur { k with tmp := s.banks[p].odata.setWidth 32, ustep := 2, status := .success,
                                            busy := false, respValid := true } } ∧
      ∀ m : Nat, m < 16 →
        o.getLsbD m = if m = n.val then !s.banks[p].odata.getLsbD m else s.banks[p].odata.getLsbD m

/-- 41_pin_io.md R156 (a): two `TGL` of the same pin in succession leave every bank as it was. -/
def Obligations.TglTwiceRestoresTheBanks : Prop :=
  ∀ (s : State) (k : Context) (port pin : BitVec 8) (w : Word) (p : Fin 8) (n : Fin 16),
    atStart s k → port.toNat = p.val → pin.toNat = n.val → s.bankEn[p] = true →
    ∃ t t' u, execFor 3 (.tgl port pin) s = .next t ∧ issueCommand t t.cur w = .next t' ∧
      execFor 3 (.tgl port pin) t' = .next u ∧ t.banks ≠ s.banks ∧ u.banks = s.banks

/-- 41_pin_io.md R158: a valid `RD` run alone on an enabled bank puts the pin's pad level into `rval` and changes no
bank. -/
def Obligations.RdReturnsThePadLevel : Prop :=
  ∀ (s : State) (k : Context) (port pin : BitVec 8) (p : Fin 8) (n : Fin 16),
    atStart s k → port.toNat = p.val → pin.toNat = n.val → s.bankEn[p] = true →
    ∃ t k', execFor 2 (.rd port pin) s = .next t ∧ t.ctxs = s.ctxs.set s.cur k' ∧ t.banks = s.banks ∧
      k'.rval = BitVec.ofBool (padLevel s p n.val) ∧ k'.status = .success ∧ k'.busy = false ∧ k'.respValid = true ∧
      k'.cmd = k.cmd

/-- 41_pin_io.md R161: `SET` then `RD` of an enabled push-pull output, nothing between them, reads the level set. -/
def Obligations.SetThenReadYieldsTheLevel : Prop :=
  ∀ (s : State) (k : Context) (port pin : BitVec 8) (level : BitVec 2) (w : Word) (p : Fin 8) (n : Fin 16),
    atStart s k → port.toNat = p.val → pin.toNat = n.val → level.toNat < 2 → s.bankEn[p] = true →
    s.banks[p].mode.extractLsb' (2 * n.val) 2 = 0b01#2 → s.banks[p].otype.getLsbD n.val = false →
    ∃ t t' u k', execFor 2 (.set port pin level) s = .next t ∧ issueCommand t t.cur w = .next t' ∧
      execFor 2 (.rd port pin) t' = .next u ∧ u.ctxs[s.cur]? = some k' ∧
      k'.rval.toNat = level.toNat ∧ k'.status = .success

/-- 40_configuration.md R144: a valid `INIT` run alone on an enabled bank leaves exactly the bank the rule gives, for both
values of `RMW_SPLIT`, and completes with `ST_SUCCESS`; the same `INIT` again changes no bank. -/
def Obligations.InitNetEffect : Prop :=
  ∀ (s : State) (k : Context) (port pin : BitVec 8) (mode pull : BitVec 2) (otype : BitVec 1) (speed : BitVec 2)
    (af : BitVec 4) (w : Word) (p : Fin 8) (n : Fin 16),
    atStart s k → port.toNat = p.val → pin.toNat = n.val → s.bankEn[p] = true →
    let i := Instr.init port pin mode pull otype speed af
    ∃ t k' t' u, execFor (stepCount s.params i) i s = .next t ∧
      t.banks = s.banks.set p (initNet s.params s.banks[p] mode pull otype speed af n) ∧
      t.ctxs = s.ctxs.set s.cur k' ∧
      k'.status = .success ∧ k'.busy = false ∧ k'.respValid = true ∧ k'.rval = k.rval ∧ k'.cmd = k.cmd ∧
      t.params = s.params ∧ t.bankEn = s.bankEn ∧ t.inputs = s.inputs ∧ t.cur = s.cur ∧ t.draws = s.draws ∧
      t.dpValue = s.dpValue ∧
      issueCommand t t.cur w = .next t' ∧ execFor (stepCount s.params i) i t' = .next u ∧ u.banks = t.banks

/-- 40_configuration.md R140, R142; 60_exceptions.md R173: run alone, every command completes, within 21 steps: a
rejected one at once, with nothing but its status written; a valid one with `ST_SUCCESS`. -/
def Obligations.EveryCommandCompletes : Prop :=
  ∀ (s : State) (k : Context) (i : Instr), atStart s k →
    stepCount s.params i ≤ 21 ∧
    ∃ t k', execFor (stepCount s.params i) i s = .next t ∧ t.ctxs = s.ctxs.set s.cur k' ∧
      k'.busy = false ∧ k'.respValid = true ∧ k'.cmd = k.cmd ∧
      (∀ st, validate i = .reject st →
        t = { s with ctxs := s.ctxs.set s.cur { k with status := st, busy := false, respValid := true } }) ∧
      (∀ p n, validate i = .pass p n → k'.status = .success)

/-! ## Frames -/

/-- What a step of any command leaves alone: the parameters (10_state.md R62) and `BANK_EN` (R52); the number of contexts
and every other context (R55, R58); its own latched word (R56); every bank but the one its `PORT` names, and all banks
for a command that validation rejects (20_memory.md R89). The clauses on `inputs` and `cur` (log 7) and on `dpValue`
(log 14) are about the model's own fields (DESIGN CHOICE). -/
def Obligations.CommandStepFrame : Prop :=
  ∀ (i : Instr) (s t : State), exec i s = .next t →
    t.params = s.params ∧ t.bankEn = s.bankEn ∧ t.inputs = s.inputs ∧ t.cur = s.cur ∧ t.dpValue = s.dpValue ∧
    t.ctxs.length = s.ctxs.length ∧
    (∀ c : Nat, c ≠ s.cur → t.ctxs[c]? = s.ctxs[c]?) ∧
    (∀ k k' : Context, s.ctxs[s.cur]? = some k → t.ctxs[s.cur]? = some k' → k'.cmd = k.cmd) ∧
    (∀ q : Fin 8, (∀ n, validate i ≠ .pass q n) → t.banks[q] = s.banks[q])

/-- 40_configuration.md R139: what a step of `INIT` leaves alone: `rval`; `ODATA` of every bank; `OTYPE`, `SPEED`, `AFL`
and `AFH` unless the mode drives the pin; `AFL` and `AFH` unless it is the alternate-function mode; and never both. -/
def Obligations.InitFrame : Prop :=
  ∀ (s t : State) (port pin : BitVec 8) (mode pull : BitVec 2) (otype : BitVec 1) (speed : BitVec 2) (af : BitVec 4),
    exec (.init port pin mode pull otype speed af) s = .next t →
    (∀ k k' : Context, s.ctxs[s.cur]? = some k → t.ctxs[s.cur]? = some k' → k'.rval = k.rval) ∧
    ∀ q : Fin 8,
      t.banks[q].odata = s.banks[q].odata ∧
      (port.toNat ≠ q.val → t.banks[q] = s.banks[q]) ∧
      (mode ≠ 0b01#2 → mode ≠ s.params.modeAF →
        t.banks[q].otype = s.banks[q].otype ∧ t.banks[q].speed = s.banks[q].speed) ∧
      (mode ≠ s.params.modeAF → t.banks[q].afl = s.banks[q].afl ∧ t.banks[q].afh = s.banks[q].afh) ∧
      (8 ≤ pin.toNat → t.banks[q].afl = s.banks[q].afl) ∧
      (pin.toNat < 8 → t.banks[q].afh = s.banks[q].afh)

/-- 41_pin_io.md R150, R154, R158: what a step of `SET`, `TGL` and `RD` leaves alone: `SET` and `TGL` every register but
`ODATA` of the bank `PORT` names, and `rval`; `SET` also `tmp` and every `ODATA` bit but the pin's; `RD` every bank. -/
def Obligations.DataCommandsFrame : Prop :=
  ∀ (s t : State) (port pin : BitVec 8) (level : BitVec 2),
    (exec (.set port pin level) s = .next t →
      (∀ k k' : Context, s.ctxs[s.cur]? = some k → t.ctxs[s.cur]? = some k' → k'.rval = k.rval ∧ k'.tmp = k.tmp) ∧
      (∀ q : Fin 8, { t.banks[q] with odata := s.banks[q].odata } = s.banks[q] ∧
        (port.toNat ≠ q.val → t.banks[q] = s.banks[q]) ∧
        (∀ m : Nat, m ≠ pin.toNat → t.banks[q].odata.getLsbD m = s.banks[q].odata.getLsbD m))) ∧
    (exec (.tgl port pin) s = .next t →
      (∀ k k' : Context, s.ctxs[s.cur]? = some k → t.ctxs[s.cur]? = some k' → k'.rval = k.rval) ∧
      (∀ q : Fin 8, { t.banks[q] with odata := s.banks[q].odata } = s.banks[q] ∧
        (port.toNat ≠ q.val → t.banks[q] = s.banks[q]))) ∧
    (exec (.rd port pin) s = .next t → t.banks = s.banks)

/-! ## The machine's step -/

/-- 10_state.md R55, R56; 70_reset_and_hazards.md R213: when context `c` with a command in flight moves, the step is one
step of the command its latched word decodes to, by context `c`; the move is consumed and nothing else is added. That the
moves are prescribed by the list `inputs`, and that with nothing prescribed the only busy context moves (the second
clause), is the model's choice of schedule (DESIGN CHOICE, log 7). -/
def Obligations.StepRunsTheLatchedCommand : Prop :=
  ∀ (s : State) (c : Nat) (k : Context), s.ctxs[c]? = some k → k.busy = true →
    (∀ rest, s.inputs = .run c :: rest →
      step s = exec (decodeWord k.cmd) { s with inputs := rest, cur := c }) ∧
    (s.inputs = [] → (∀ d kd, d ≠ c → s.ctxs[d]? = some kd → kd.busy = false) →
      step s = exec (decodeWord k.cmd) { s with cur := c })

/-- A command presented to the model (log 12) is issued on context 0 and its first step is the machine's next step. -/
def Obligations.PresentedCommandRunsNext : Prop :=
  ∀ (s : State) (k : Context) (rest : List Context) (w : Word), s.ctxs = k :: rest →
    step (s.withFetchWord 32 w.toNat) =
      exec (decodeWord w)
        { s with ctxs := { k with cmd := w, busy := true, ustep := 0, respValid := false } :: rest, cur := 0 }

/-- 10_state.md R56: an issue on an idle context latches the word and touches nothing else, in particular not `rval`;
on a busy one there is no such step. -/
def Obligations.IssueLatchesTheWord : Prop :=
  ∀ (s : State) (c : Nat) (k : Context) (w : Word) (rest : List Input), s.ctxs[c]? = some k →
    s.inputs = .issue c w :: rest →
    (k.busy = false →
      step s = .next { s with
        inputs := rest,
        ctxs := s.ctxs.set c { k with cmd := w, busy := true, ustep := 0, respValid := false } }) ∧
    (k.busy = true → step s = .refused .contextBusy)

/-- 10_state.md R55; 70_reset_and_hazards.md R213; 20_memory.md R90: with nothing prescribed, a machine whose contexts
are all idle stays as it is, and otherwise some busy context performs its next step. The idle step, that a context moves
at all, and that which one moves is free, are the model's choice of schedule (DESIGN CHOICE, log 7). -/
def Obligations.SilentEnvironmentLetsABusyContextMove : Prop :=
  ∀ s : State, s.inputs = [] →
    ((∀ (c : Nat) (k : Context), s.ctxs[c]? = some k → k.busy = false) → step s = .next s) ∧
    ((∃ (c : Nat) (k : Context), s.ctxs[c]? = some k ∧ k.busy = true) →
      ∃ (c : Nat) (k : Context) (d : Nat), s.ctxs[c]? = some k ∧ k.busy = true ∧
        step s = exec (decodeWord k.cmd) { s with cur := c, draws := d })

/-- 10_state.md R63; 20_memory.md R85: a direct-port transaction on valid selectors is one `RegRead` or `RegWrite`; on a
bank of 8 or more or a register id of 9 or more it has no step. That the word read is kept in `dpValue` is the model's
choice (DESIGN CHOICE, log 14), as is the list `inputs` the move stands in (log 7). -/
def Obligations.DirectPortTransactions : Prop :=
  ∀ (s : State) (rest : List Input) (a b : Nat) (v : Word),
    (∀ (p : Fin 8) (r : Reg), a = p.val → b = regId r →
      (s.inputs = .dpRead a b :: rest →
        step s = .next { afterRead { s with inputs := rest } p r with
          dpValue := regRead { s with inputs := rest } p r }) ∧
      (s.inputs = .dpWrite a b v :: rest → step s = .next (regWrite { s with inputs := rest } p r v))) ∧
    (8 ≤ a ∨ 9 ≤ b →
      (s.inputs = .dpRead a b :: rest → step s = .refused .noSuchRegister) ∧
      (s.inputs = .dpWrite a b v :: rest → step s = .refused .noSuchRegister))

/-- 20_memory.md R72 to R75: under a legal platform map a word access at `BASE[p] + OFF[r]` is the transaction on
register `r` of bank `p`; every other access has no step: one of another size, one at an address that is none of the 72,
and so one at an address that is no multiple of 4. That the word read is kept in `dpValue` is the model's choice (DESIGN
CHOICE, log 14), as is the list `inputs` the move stands in (log 7). -/
def Obligations.PlatformAddressesNameRegisters : Prop :=
  ∀ (s : State) (rest : List Input) (addr size : Nat) (v : Word), s.params.legal = true →
    let idle : State := { s with inputs := rest }
    let noStep : Nat → Refusal → Prop := fun width why =>
      (s.inputs = .busRead addr width :: rest → step s = .refused why) ∧
      (s.inputs = .busWrite addr width v :: rest → step s = .refused why)
    (∀ (p : Fin 8) (r : Reg), addr = regAddress s.params p r →
      (s.inputs = .busRead addr 4 :: rest →
        step s = .next { afterRead idle p r with dpValue := regRead idle p r }) ∧
      (s.inputs = .busWrite addr 4 v :: rest → step s = .next (regWrite idle p r v))) ∧
    (size ≠ 4 → noStep size .notOneWord) ∧
    ((∀ (p : Fin 8) (r : Reg), addr ≠ regAddress s.params p r) → noStep 4 (.noRegisterAt addr)) ∧
    (addr % 4 ≠ 0 → noStep 4 (.noRegisterAt addr))

/-- 00_scope.md R9; 20_memory.md R72: the default parameters meet the constraints on parameters, and the default map
puts `MODE` of bank A and `AFH` of bank H where the table says. The values are the model's choice (log 1). -/
def Obligations.DefaultParametersAreLegal : Prop :=
  Config.defaults.legal = true ∧
  regAddress Config.defaults 0 .mode = 0x40020000 ∧ regAddress Config.defaults 7 .afh = 0x40021C24

/-! ## Reset and invariants -/

/-- 70_reset_and_hazards.md R196 (with R190, R195): after reset every stored register holds `INIT_BANK` and every context
is idle with no response, whatever was in flight; `BANK_EN` and the parameters are not the block's to reset. That `rst`
keeps the moves still to come (`t.inputs = rest`) is the model's choice (DESIGN CHOICE, log 18). -/
def Obligations.ResetLeavesTheListedValues : Prop :=
  (State.reset.banks = State.reset.params.initBank ∧
    ∀ k ∈ State.reset.ctxs, k.busy = false ∧ k.respValid = false) ∧
  (∀ (s : State) (rest : List Input), s.inputs = .rst :: rest →
    ∃ t, step s = .next t ∧ t.banks = s.params.initBank ∧ t.ctxs.length = s.ctxs.length ∧
      (∀ k ∈ t.ctxs, k.busy = false ∧ k.respValid = false) ∧
      t.bankEn = s.bankEn ∧ t.params = s.params ∧ t.inputs = rest)

/-- The state after reset is sound (10_state.md R55, R57; 00_scope.md R8). -/
def Obligations.ResetStateIsSound : Prop := stateSound State.reset = true

/-- 10_state.md R55, R57: every step keeps soundness: no response while a command is in flight, and a step index that is
always that of a step the command has. -/
def Obligations.EveryStepKeepsTheStateSound : Prop :=
  ∀ s t : State, stateSound s = true → step s = .next t → stateSound t = true

/-- 60_exceptions.md R170: no step of a sound state is a fault, whatever the agents do. -/
def Obligations.SoundStatesNeverFault : Prop :=
  ∀ (s : State) (f : Fault), stateSound s = true → step s ≠ .fault f

/-- 10_state.md R62, R52: no step changes the parameters or the number of contexts, and `BANK_EN` changes only when the
platform drives it. Driving `BANK_EN[p]` always has its step: entry `p` becomes the level driven, every other entry keeps
its value, and no bank and no context changes. That the driving is a move of the list `inputs` is the model's choice
(DESIGN CHOICE, logs 4 and 7). -/
def Obligations.StepsKeepParametersAndEnables : Prop :=
  (∀ s t : State, step s = .next t →
    t.params = s.params ∧ t.ctxs.length = s.ctxs.length ∧
    ((∀ p e, s.inputs.head? ≠ some (.bankEn p e)) → t.bankEn = s.bankEn)) ∧
  (∀ (s : State) (p : Fin 8) (e : Bool) (rest : List Input), s.inputs = .bankEn p e :: rest →
    ∃ t, step s = .next t ∧ t.bankEn[p] = e ∧ (∀ q : Fin 8, q ≠ p → t.bankEn[q] = s.bankEn[q]) ∧
      t.banks = s.banks ∧ t.ctxs = s.ctxs ∧ t.inputs = rest)

/-- 10_state.md R58: outside reset, `status` of a context is written only by the completion of its command, and `rval`
only by an `RD` that completes with `ST_SUCCESS`. -/
def Obligations.StatusAndSlotHaveOneWriter : Prop :=
  ∀ (s t : State) (c : Nat) (k k' : Context), step s = .next t → s.inputs.head? ≠ some .rst →
    s.ctxs[c]? = some k → t.ctxs[c]? = some k' →
    (k'.status ≠ k.status → k.busy = true ∧ k'.busy = false) ∧
    (k'.rval ≠ k.rval →
      (∃ port pin, decodeWord k.cmd = .rd port pin) ∧ k.busy = true ∧ k'.busy = false ∧ k'.status = .success)

/-- 10_state.md R56: the response of an idle context stays readable, unchanged, until the next issue on that context
(reset aside), whatever else moves. -/
def Obligations.ResponseStaysUntilTheNextIssue : Prop :=
  ∀ (s t : State) (c : Nat) (k : Context), step s = .next t → s.ctxs[c]? = some k → k.busy = false →
    s.inputs.head? ≠ some .rst → (∀ w, s.inputs.head? ≠ some (.issue c w)) →
    ∃ k', t.ctxs[c]? = some k' ∧ responseStatus k' = responseStatus k ∧ responseLevel k' = responseLevel k

/-! ## Concurrency -/

/-- 70_reset_and_hazards.md R203 (the race P5 of 95_test_vectors.md): `TGL A, 0` on context 0 and `SET A, 1, HIGH` on
context 1 from `ODATA = 0`. Every schedule ends with both commands successful and `ODATA` 3 or 1, and both ends occur. -/
def Obligations.LostUpdateRaceHasExactlyTwoEnds : Prop :=
  ∀ (s : State) (k0 k1 : Context) (others : List Context), s.ctxs = k0 :: k1 :: others →
    k0.busy = false → k1.busy = false → s.bankEn[0] = true → s.banks[0].odata = 0 →
    let start : List Nat → State := fun sched =>
      { s with inputs := .issue 0 0x80000000#32 :: .issue 1 0x48000001#32 :: sched.map Input.run }
    (∀ sched : List Nat, sched.Perm [0, 0, 0, 1, 1] →
      ∃ t c0 c1, Host.Core.run Sys2Proof.core 7 (start sched) = .next t ∧
        (State.banks t)[0].odata ∈ [0x0003#16, 0x0001#16] ∧
        State.ctxs t = c0 :: c1 :: others ∧ c0.status = .success ∧ c1.status = .success ∧
        c0.busy = false ∧ c1.busy = false) ∧
    (∃ sched t, sched.Perm [0, 0, 0, 1, 1] ∧ Host.Core.run Sys2Proof.core 7 (start sched) = .next t ∧
      (State.banks t)[0].odata = 0x0003#16) ∧
    (∃ sched t, sched.Perm [0, 0, 0, 1, 1] ∧ Host.Core.run Sys2Proof.core 7 (start sched) = .next t ∧
      (State.banks t)[0].odata = 0x0001#16)

/-- 70_reset_and_hazards.md R204: two `INIT` of different pins of bank A, both reading `MODE = 0` before either writes:
`MODE` ends `0x00000004`, pin 0's update lost. -/
def Obligations.InterleavedInitsLoseAModeUpdate : Prop :=
  ∀ (s : State) (k0 k1 : Context) (others : List Context), s.ctxs = k0 :: k1 :: others →
    k0.busy = false → k1.busy = false → s.bankEn[0] = true → s.banks[0].mode = 0 → s.params.rmwSplit = .one →
    ∃ t, Host.Core.run Sys2Proof.core 8
        { s with inputs := [.issue 0 0x20010000#32, .issue 1 0x20010001#32, .run 0, .run 0, .run 1, .run 1, .run 0,
                            .run 1] } = .next t ∧
      (State.banks t)[0].mode = 0x00000004#32

/-- 70_reset_and_hazards.md R201: steps of commands on different banks never conflict: from any state, in either order,
they give the same state (but for which context moved last). Left out: `RD` and disabled banks, whose steps may draw a free
value, and rejected commands, which reach no bank. -/
def Obligations.StepsOnDifferentBanksCommute : Prop :=
  ∀ (s t1 t2 : State) (i j : Instr) (c d : Nat) (p q : Fin 8) (m n : Fin 16), c ≠ d → p ≠ q →
    validate i = .pass p m → validate j = .pass q n →
    (∀ port pin, i ≠ .rd port pin) → (∀ port pin, j ≠ .rd port pin) →
    s.bankEn[p] = true → s.bankEn[q] = true →
    exec i { s with cur := c } = .next t1 → exec j { s with cur := d } = .next t2 →
    ∃ u : State, exec j { t1 with cur := d } = .next { u with cur := d } ∧
      exec i { t2 with cur := c } = .next { u with cur := c }
end

