-- ==== Sys2Proof/Laws/Operands.lean ====
section
/-! SUPPORT. The small lemmas of the operands: bits, register ids, verdicts and the lengths of the step lists. -/

namespace Sys2Proof.Machine

/-- Bit `i` of `bitsOf k f` is `f i` below `k`, and 0 from `k` on. -/
theorem getLsbD_bitsOf (k : Nat) (f : Nat → Bool) (i : Nat) :
    (bitsOf k f).getLsbD i = (decide (i < k) && f i) := by
  induction k with
  | zero => simp [bitsOf]
  | succ k ih =>
    simp only [bitsOf, BitVec.getLsbD_cons, ih]
    by_cases h : i = k
    · simp [h]
    · simp [h, show (i < k + 1) ↔ (i < k) by omega]

/-- Bit `i` of a field's mask. -/
theorem getLsbD_fieldMask (w i : Nat) (hw : w = 1 ∨ w = 2 ∨ w = 4) : (fieldMask w).getLsbD i = decide (i < w) := by
  by_cases h : i < 32
  · rcases hw with rfl | rfl | rfl <;> interval_cases i <;> decide
  · rw [BitVec.getLsbD_of_ge _ _ (by omega)]
    rcases hw with rfl | rfl | rfl <;> simp <;> omega

/-- A value of `w` bits has no bit from `w` on. -/
theorem getLsbD_of_lt_two_pow (v : Word) (w i : Nat) (h : v.toNat < 2 ^ w) (hi : w ≤ i) : v.getLsbD i = false := by
  rw [BitVec.getLsbD, Nat.testBit_lt_two_pow]
  exact lt_of_lt_of_le h (Nat.pow_le_pow_right (by norm_num) hi)

/-- Bit `i` of a register after the clear step: 0 inside the field, as before outside it. -/
theorem getLsbD_clearField (r : Word) (w s i : Nat) (hw : w = 1 ∨ w = 2 ∨ w = 4) (hi : i < 32) :
    (clearField r (fieldMask w) s).getLsbD i = if s ≤ i ∧ i < s + w then false else r.getLsbD i := by
  simp only [clearField, BitVec.getLsbD_and, BitVec.getLsbD_not, BitVec.getLsbD_shiftLeft,
    getLsbD_fieldMask _ _ hw, hi, decide_true, Bool.true_and]
  by_cases h1 : s ≤ i
  · by_cases h2 : i < s + w
    · simp [h1, h2, show ¬i < s by omega, show i - s < w by omega]
    · simp [h2, show ¬i < s by omega, show ¬i - s < w by omega]
  · simp [h1, show i < s by omega]

/-- Bit `i` of a register after a field update: the value's bit inside the field, as before outside it. -/
theorem getLsbD_updateField (r v : Word) (w s i : Nat) (hw : w = 1 ∨ w = 2 ∨ w = 4) (hv : v.toNat < 2 ^ w)
    (hi : i < 32) :
    (updateField r w s v).getLsbD i = if s ≤ i ∧ i < s + w then v.getLsbD (i - s) else r.getLsbD i := by
  simp only [updateField, setField, BitVec.getLsbD_or, getLsbD_clearField _ _ _ _ hw hi, BitVec.getLsbD_shiftLeft, hi,
    decide_true, Bool.true_and]
  by_cases h1 : s ≤ i
  · by_cases h2 : i < s + w
    · simp [h1, h2, show ¬i < s by omega]
    · simp [h2, show ¬i < s by omega, getLsbD_of_lt_two_pow v w (i - s) hv (by omega)]
  · simp [h1, show i < s by omega]

/-- Bit `i` of a field read. -/
theorem getLsbD_getField (r : Word) (w s i : Nat) (hw : w = 1 ∨ w = 2 ∨ w = 4) :
    (getField r w s).getLsbD i = (decide (i < w) && r.getLsbD (s + i)) := by
  simp only [getField, BitVec.getLsbD_and, BitVec.getLsbD_ushiftRight, getLsbD_fieldMask _ _ hw, Bool.and_comm]

@[simp] theorem regOfId_regId (r : Reg) : regOfId (regId r) = some r := by cases r <;> rfl

/-- Every pair of a bank and a register is a location. -/
theorem mem_allLocations (p : Fin 8) (r : Reg) : (p, r) ∈ allLocations := by
  revert p; cases r <;> decide

/-- The register found at an address has that address. -/
theorem regAt_eq_some (P : Params) (addr : Nat) (l : Fin 8 × Reg) (h : regAt P addr = some l) :
    addr = regAddress P l.1 l.2 := by
  have hb := List.find?_some h
  exact (beq_iff_eq.mp hb).symm

/-- No register is found exactly at the addresses that are none of the 72 (20_memory.md R73, R75). -/
theorem regAt_eq_none_iff (P : Params) (addr : Nat) :
    regAt P addr = none ↔ ∀ (p : Fin 8) (r : Reg), addr ≠ regAddress P p r := by
  constructor
  · intro h p r e
    have hf := List.find?_eq_none.mp h (p, r) (mem_allLocations p r)
    simp [e] at hf
  · intro h
    cases hf : regAt P addr with
    | none => rfl
    | some l => exact absurd (regAt_eq_some P addr l hf) (h l.1 l.2)

theorem regId_lt (r : Reg) : regId r < 9 := by cases r <;> decide

@[simp] theorem bankOfId_val (p : Fin 8) : bankOfId p.val = some p := by simp [bankOfId]

/-- Ids from 9 on name no register. -/
theorem regOfId_eq_none (r : Nat) (h : 9 ≤ r) : regOfId r = none := by
  unfold regOfId; split <;> first | omega | rfl

/-- Selectors from 8 on name no bank. -/
theorem bankOfId_eq_none (p : Nat) (h : 8 ≤ p) : bankOfId p = none := by
  simp [bankOfId, Nat.not_lt.mpr h]

/-- Validation of valid identifiers passes them on. -/
theorem validatePin_valid (port pin : BitVec 8) (p : Fin 8) (n : Fin 16) (hp : port.toNat = p.val)
    (hn : pin.toNat = n.val) : validatePin port pin = .pass p n := by
  simp [validatePin, hp, hn]

/-- Validation of an invalid identifier fails. -/
theorem validatePin_invalid (port pin : BitVec 8) (h : 8 ≤ port.toNat ∨ 16 ≤ pin.toNat) :
    validatePin port pin = .reject .fail := by
  unfold validatePin
  split
  · split
    · omega
    · rfl
  · rfl

/-- Validation passes exactly the identifiers it names. -/
theorem validatePin_pass (port pin : BitVec 8) (p : Fin 8) (n : Fin 16) (h : validatePin port pin = .pass p n) :
    port.toNat = p.val ∧ pin.toNat = n.val := by
  unfold validatePin at h
  split at h
  · split at h
    · cases h; exact ⟨rfl, rfl⟩
    · cases h
  · cases h

/-- A field update is one read-write pair, or two. -/
theorem fieldUpdate_length (sp : RmwSplit) (l : Loc) (v : Word) :
    (fieldUpdate sp l v).length = match sp with | .one => 2 | .two => 4 := by cases sp <;> rfl

/-- A valid command performs at least one transaction. -/
theorem scriptOf_pos (P : Params) (n : Fin 16) (i : Instr) (hi : i ≠ .initNull) : 0 < (scriptOf P n i).length := by
  cases i with
  | init _ _ mode pull otype speed af =>
    simp only [scriptOf, initScript, List.length_append, fieldUpdate_length]
    cases P.rmwSplit <;> simp
  | initNull => exact absurd rfl hi
  | set _ _ level => simp [scriptOf, setScript]
  | tgl _ _ => simp [scriptOf, tglScript]
  | rd _ _ => simp [scriptOf, rdScript]

/-- A command performs at most 20 transactions. -/
theorem scriptOf_length_le (P : Params) (n : Fin 16) (i : Instr) : (scriptOf P n i).length ≤ 20 := by
  cases i with
  | init _ _ mode pull otype speed af =>
    simp only [scriptOf, initScript]
    cases P.rmwSplit <;> cases isDriven P mode <;> cases isAF P mode <;> simp [fieldUpdate]
  | initNull => simp [scriptOf]
  | set _ _ level => simp [scriptOf, setScript]
  | tgl _ _ => simp [scriptOf, tglScript]
  | rd _ _ => simp [scriptOf, rdScript]

/-- A command takes at least one step. -/
theorem stepCount_pos (P : Params) (i : Instr) : 0 < stepCount P i := by
  unfold stepCount; split <;> omega

/-- A valid command takes one step more than it has transactions. -/
theorem stepCount_pass (P : Params) (i : Instr) (p : Fin 8) (n : Fin 16) (h : validate i = .pass p n) :
    stepCount P i = 1 + (scriptOf P n i).length := by
  simp [stepCount, h]

/-- A rejected command takes one step. -/
theorem stepCount_reject (P : Params) (i : Instr) (st : Status) (h : validate i = .reject st) :
    stepCount P i = 1 := by
  simp [stepCount, h]

/-- Soundness, context by context. -/
theorem stateSound_iff (s : State) :
    stateSound s = true ↔
      0 < s.ctxs.length ∧ ∀ (c : Nat) (k : Context), s.ctxs[c]? = some k → contextSound s.params k = true := by
  simp only [stateSound, Bool.and_eq_true, decide_eq_true_eq, List.all_eq_true]
  constructor
  · rintro ⟨a, b⟩
    exact ⟨a, fun c k h => b k (List.mem_of_getElem? h)⟩
  · rintro ⟨a, b⟩
    refine ⟨a, fun k h => ?_⟩
    obtain ⟨c, hc⟩ := List.getElem?_of_mem h
    exact b c k hc

end Sys2Proof.Machine
end

