-- ==== Sys2Proof/Laws/State.lean ====
section
/-! SUPPORT. One lemma per field per update of the state and of a context, so that no proof unfolds an update. -/

namespace Sys2Proof.Machine

/-! ## Contexts -/

@[simp] theorem completed_busy (k : Context) (st : Status) : (completed k st).busy = false := rfl
@[simp] theorem completed_cmd (k : Context) (st : Status) : (completed k st).cmd = k.cmd := rfl
@[simp] theorem completed_ustep (k : Context) (st : Status) : (completed k st).ustep = k.ustep := rfl
@[simp] theorem completed_tmp (k : Context) (st : Status) : (completed k st).tmp = k.tmp := rfl
@[simp] theorem completed_status (k : Context) (st : Status) : (completed k st).status = st := rfl
@[simp] theorem completed_rval (k : Context) (st : Status) : (completed k st).rval = k.rval := rfl
@[simp] theorem completed_respValid (k : Context) (st : Status) : (completed k st).respValid = true := rfl

@[simp] theorem advanced_busy (k : Context) : (advanced k).busy = k.busy := rfl
@[simp] theorem advanced_cmd (k : Context) : (advanced k).cmd = k.cmd := rfl
@[simp] theorem advanced_ustep (k : Context) : (advanced k).ustep = k.ustep + 1 := rfl
@[simp] theorem advanced_tmp (k : Context) : (advanced k).tmp = k.tmp := rfl
@[simp] theorem advanced_status (k : Context) : (advanced k).status = k.status := rfl
@[simp] theorem advanced_rval (k : Context) : (advanced k).rval = k.rval := rfl
@[simp] theorem advanced_respValid (k : Context) : (advanced k).respValid = k.respValid := rfl

@[simp] theorem issued_busy (k : Context) (w : Word) : (issued k w).busy = true := rfl
@[simp] theorem issued_cmd (k : Context) (w : Word) : (issued k w).cmd = w := rfl
@[simp] theorem issued_ustep (k : Context) (w : Word) : (issued k w).ustep = 0 := rfl
@[simp] theorem issued_tmp (k : Context) (w : Word) : (issued k w).tmp = k.tmp := rfl
@[simp] theorem issued_status (k : Context) (w : Word) : (issued k w).status = k.status := rfl
@[simp] theorem issued_rval (k : Context) (w : Word) : (issued k w).rval = k.rval := rfl
@[simp] theorem issued_respValid (k : Context) (w : Word) : (issued k w).respValid = false := rfl

@[simp] theorem idleContext_busy (l : Latches) : (idleContext l).busy = false := rfl
@[simp] theorem idleContext_respValid (l : Latches) : (idleContext l).respValid = false := rfl

/-! ## A context replaced -/

@[simp] theorem setContext_params (s : State) (c : Nat) (k : Context) : (setContext s c k).params = s.params := rfl
@[simp] theorem setContext_banks (s : State) (c : Nat) (k : Context) : (setContext s c k).banks = s.banks := rfl
@[simp] theorem setContext_ctxs (s : State) (c : Nat) (k : Context) : (setContext s c k).ctxs = s.ctxs.set c k := rfl
@[simp] theorem setContext_bankEn (s : State) (c : Nat) (k : Context) : (setContext s c k).bankEn = s.bankEn := rfl
@[simp] theorem setContext_inputs (s : State) (c : Nat) (k : Context) : (setContext s c k).inputs = s.inputs := rfl
@[simp] theorem setContext_cur (s : State) (c : Nat) (k : Context) : (setContext s c k).cur = s.cur := rfl
@[simp] theorem setContext_draws (s : State) (c : Nat) (k : Context) : (setContext s c k).draws = s.draws := rfl
@[simp] theorem setContext_dpValue (s : State) (c : Nat) (k : Context) : (setContext s c k).dpValue = s.dpValue := rfl

/-! ## A read -/

@[simp] theorem afterRead_params (s : State) (p : Fin 8) (r : Reg) : (afterRead s p r).params = s.params := by
  unfold afterRead; split <;> rfl
@[simp] theorem afterRead_banks (s : State) (p : Fin 8) (r : Reg) : (afterRead s p r).banks = s.banks := by
  unfold afterRead; split <;> rfl
@[simp] theorem afterRead_ctxs (s : State) (p : Fin 8) (r : Reg) : (afterRead s p r).ctxs = s.ctxs := by
  unfold afterRead; split <;> rfl
@[simp] theorem afterRead_bankEn (s : State) (p : Fin 8) (r : Reg) : (afterRead s p r).bankEn = s.bankEn := by
  unfold afterRead; split <;> rfl
@[simp] theorem afterRead_inputs (s : State) (p : Fin 8) (r : Reg) : (afterRead s p r).inputs = s.inputs := by
  unfold afterRead; split <;> rfl
@[simp] theorem afterRead_cur (s : State) (p : Fin 8) (r : Reg) : (afterRead s p r).cur = s.cur := by
  unfold afterRead; split <;> rfl
@[simp] theorem afterRead_dpValue (s : State) (p : Fin 8) (r : Reg) : (afterRead s p r).dpValue = s.dpValue := by
  unfold afterRead; split <;> rfl

/-- A read of a stored register of an enabled bank draws nothing, so it leaves the state as it is. -/
theorem afterRead_enabled (s : State) (p : Fin 8) (r : Reg) (he : s.bankEn[p] = true) (hr : r ≠ .idata) :
    afterRead s p r = s := by
  simp [afterRead, hr, he]

/-! ## A write -/

@[simp] theorem regWrite_params (s : State) (p : Fin 8) (r : Reg) (v : Word) :
    (regWrite s p r v).params = s.params := by unfold regWrite; split <;> rfl
@[simp] theorem regWrite_ctxs (s : State) (p : Fin 8) (r : Reg) (v : Word) :
    (regWrite s p r v).ctxs = s.ctxs := by unfold regWrite; split <;> rfl
@[simp] theorem regWrite_bankEn (s : State) (p : Fin 8) (r : Reg) (v : Word) :
    (regWrite s p r v).bankEn = s.bankEn := by unfold regWrite; split <;> rfl
@[simp] theorem regWrite_inputs (s : State) (p : Fin 8) (r : Reg) (v : Word) :
    (regWrite s p r v).inputs = s.inputs := by unfold regWrite; split <;> rfl
@[simp] theorem regWrite_cur (s : State) (p : Fin 8) (r : Reg) (v : Word) :
    (regWrite s p r v).cur = s.cur := by unfold regWrite; split <;> rfl
@[simp] theorem regWrite_draws (s : State) (p : Fin 8) (r : Reg) (v : Word) :
    (regWrite s p r v).draws = s.draws := by unfold regWrite; split <;> rfl
@[simp] theorem regWrite_dpValue (s : State) (p : Fin 8) (r : Reg) (v : Word) :
    (regWrite s p r v).dpValue = s.dpValue := by unfold regWrite; split <;> rfl

/-! ## A transaction of a command -/

@[simp] theorem txnState_params (s : State) (k : Context) (p : Fin 8) (t : Txn) :
    (txnState s k p t).params = s.params := by cases t <;> simp [txnState]
@[simp] theorem txnState_ctxs (s : State) (k : Context) (p : Fin 8) (t : Txn) :
    (txnState s k p t).ctxs = s.ctxs := by cases t <;> simp [txnState]
@[simp] theorem txnState_bankEn (s : State) (k : Context) (p : Fin 8) (t : Txn) :
    (txnState s k p t).bankEn = s.bankEn := by cases t <;> simp [txnState]
@[simp] theorem txnState_inputs (s : State) (k : Context) (p : Fin 8) (t : Txn) :
    (txnState s k p t).inputs = s.inputs := by cases t <;> simp [txnState]
@[simp] theorem txnState_cur (s : State) (k : Context) (p : Fin 8) (t : Txn) :
    (txnState s k p t).cur = s.cur := by cases t <;> simp [txnState]
@[simp] theorem txnState_dpValue (s : State) (k : Context) (p : Fin 8) (t : Txn) :
    (txnState s k p t).dpValue = s.dpValue := by cases t <;> simp [txnState]

@[simp] theorem txnContext_busy (s : State) (k : Context) (p : Fin 8) (t : Txn) :
    (txnContext s k p t).busy = k.busy := by cases t <;> rfl
@[simp] theorem txnContext_cmd (s : State) (k : Context) (p : Fin 8) (t : Txn) :
    (txnContext s k p t).cmd = k.cmd := by cases t <;> rfl
@[simp] theorem txnContext_ustep (s : State) (k : Context) (p : Fin 8) (t : Txn) :
    (txnContext s k p t).ustep = k.ustep := by cases t <;> rfl
@[simp] theorem txnContext_status (s : State) (k : Context) (p : Fin 8) (t : Txn) :
    (txnContext s k p t).status = k.status := by cases t <;> rfl
@[simp] theorem txnContext_respValid (s : State) (k : Context) (p : Fin 8) (t : Txn) :
    (txnContext s k p t).respValid = k.respValid := by cases t <;> rfl

/-! ## Reset, the direct port, a presented command -/

@[simp] theorem resetBlock_params (s : State) : (resetBlock s).params = s.params := rfl
@[simp] theorem resetBlock_banks (s : State) : (resetBlock s).banks = s.params.initBank := rfl
@[simp] theorem resetBlock_ctxs (s : State) : (resetBlock s).ctxs = idleContexts s.draws s.ctxs.length := rfl
@[simp] theorem resetBlock_bankEn (s : State) : (resetBlock s).bankEn = s.bankEn := rfl
@[simp] theorem resetBlock_inputs (s : State) : (resetBlock s).inputs = s.inputs := rfl
@[simp] theorem resetBlock_cur (s : State) : (resetBlock s).cur = s.cur := rfl
@[simp] theorem resetBlock_draws (s : State) : (resetBlock s).draws = s.draws + 1 := rfl
@[simp] theorem resetBlock_dpValue (s : State) : (resetBlock s).dpValue = s.dpValue := rfl

@[simp] theorem portRead_params (s : State) (p : Fin 8) (r : Reg) : (portRead s p r).params = s.params :=
  afterRead_params s p r
@[simp] theorem portRead_banks (s : State) (p : Fin 8) (r : Reg) : (portRead s p r).banks = s.banks :=
  afterRead_banks s p r
@[simp] theorem portRead_ctxs (s : State) (p : Fin 8) (r : Reg) : (portRead s p r).ctxs = s.ctxs :=
  afterRead_ctxs s p r
@[simp] theorem portRead_bankEn (s : State) (p : Fin 8) (r : Reg) : (portRead s p r).bankEn = s.bankEn :=
  afterRead_bankEn s p r
@[simp] theorem portRead_inputs (s : State) (p : Fin 8) (r : Reg) : (portRead s p r).inputs = s.inputs :=
  afterRead_inputs s p r
@[simp] theorem portRead_dpValue (s : State) (p : Fin 8) (r : Reg) : (portRead s p r).dpValue = regRead s p r := rfl

@[simp] theorem presentCommand_params (s : State) (w : Word) : (presentCommand s w).params = s.params := rfl
@[simp] theorem presentCommand_banks (s : State) (w : Word) : (presentCommand s w).banks = s.banks := rfl
@[simp] theorem presentCommand_ctxs (s : State) (w : Word) :
    (presentCommand s w).ctxs = s.ctxs.modify 0 (fun k => issued k w) := rfl
@[simp] theorem presentCommand_bankEn (s : State) (w : Word) : (presentCommand s w).bankEn = s.bankEn := rfl
@[simp] theorem presentCommand_inputs (s : State) (w : Word) :
    (presentCommand s w).inputs = .run 0 :: s.inputs := rfl
@[simp] theorem presentCommand_cur (s : State) (w : Word) : (presentCommand s w).cur = s.cur := rfl
@[simp] theorem presentCommand_draws (s : State) (w : Word) : (presentCommand s w).draws = s.draws := rfl
@[simp] theorem presentCommand_dpValue (s : State) (w : Word) : (presentCommand s w).dpValue = s.dpValue := rfl

/-- Reset keeps the number of contexts. -/
@[simp] theorem idleContexts_length (d n : Nat) : (idleContexts d n).length = n := by
  induction n with
  | zero => rfl
  | succ n ih => simp [idleContexts, ih]

/-- Every context of `idleContexts` is idle. -/
theorem mem_idleContexts (d n : Nat) (k : Context) (h : k ∈ idleContexts d n) :
    ∃ l, k = idleContext l := by
  induction n with
  | zero => simp [idleContexts] at h
  | succ n ih =>
    simp only [idleContexts, List.mem_append, List.mem_singleton] at h
    exact h.elim ih fun e => ⟨_, e⟩

end Sys2Proof.Machine
end

