-- ==== Sys2Proof/Laws/Ops.lean ====
section
/-! SUPPORT. What each shared operation can do, said once. -/

namespace Sys2Proof.Machine

/-! ## The pad and the banks -/

/-- Bits of the word `IDATA` shows. -/
theorem padWord_getLsbD (s : State) (p : Fin 8) (n : Nat) :
    (padWord s p).getLsbD n = (decide (n < 16) && padLevel s p n) := by
  simp only [padWord, BitVec.getLsbD_setWidth, getLsbD_bitsOf]
  by_cases h : n < 16
  · simp [h, show n < 32 by omega]
  · simp [h]

/-- The level an `RD` takes is the pin's bit of the word read. -/
theorem levelRead_eq_bit (s : State) (p : Fin 8) (n : Nat) : levelRead s p n = (regRead s p .idata).getLsbD n := by
  unfold levelRead regRead
  split
  · simp only [regValue, padWord_getLsbD]
  · rfl

/-- Bits of `ODATA` after a write to `SETRST`. -/
theorem setReset_getLsbD (o : Half) (v : Word) (n : Nat) :
    (setReset o v).getLsbD n =
      (decide (n < 16) && (if v.getLsbD n then true else if v.getLsbD (n + 16) then false else o.getLsbD n)) := by
  rw [setReset, getLsbD_bitsOf]

/-- A write to an enabled bank replaces that bank. -/
theorem regWrite_enabled (s : State) (p : Fin 8) (r : Reg) (v : Word) (h : s.bankEn[p] = true) :
    regWrite s p r v = { s with banks := s.banks.set p (writeBank s.banks[p] r v) } := by
  unfold regWrite
  rw [if_pos h]

/-- A write to a disabled bank does nothing. -/
theorem regWrite_disabled (s : State) (p : Fin 8) (r : Reg) (v : Word) (h : s.bankEn[p] = false) :
    regWrite s p r v = s := by
  unfold regWrite
  rw [if_neg (by simp [h])]

/-- The addressed bank after a write (indices in the form simp gives them). -/
theorem regWrite_bank_self (s : State) (p : Fin 8) (r : Reg) (v : Word) :
    (regWrite s p r v).banks[p.val] =
      if s.bankEn[p.val] then writeBank s.banks[p.val] r v else s.banks[p.val] := by
  unfold regWrite
  simp only [Fin.getElem_fin]
  split <;> simp

/-- Every other bank after a write. -/
theorem regWrite_bank_other (s : State) (p q : Fin 8) (r : Reg) (v : Word) (h : q ≠ p) :
    (regWrite s p r v).banks[q.val] = s.banks[q.val] := by
  unfold regWrite
  have hv : p.val ≠ q.val := fun e => h (Fin.ext e.symm)
  split
  · simp [hv]
  · rfl

/-- A transaction of a command leaves every bank but the command's as it is. -/
theorem txnState_bank_other (s : State) (k : Context) (p q : Fin 8) (t : Txn) (h : q ≠ p) :
    (txnState s k p t).banks[q.val] = s.banks[q.val] := by
  cases t <;> simp [txnState, regWrite_bank_other, h]

/-- A transaction leaves `rval` alone unless it is the read of an `RD`. -/
theorem txnContext_rval (s : State) (k : Context) (p : Fin 8) (t : Txn) (h : ∀ n, t ≠ .loadLevel n) :
    (txnContext s k p t).rval = k.rval := by
  cases t <;> first | rfl | exact absurd rfl (h _)

/-! ## Steps of a command -/

/-- Everything a step of a command can do when it answers a next state: a failed validation completes with the status;
a passed one moves on; a transaction is performed, and the last one completes with success. -/
theorem commandStep_next (v : Verdict) (script : Fin 16 → List Txn) (s t : State)
    (h : commandStep v script s = .next t) :
    ∃ k, s.ctxs[s.cur]? = some k ∧
      ((∃ st, v = .reject st ∧ k.ustep.toNat = 0 ∧ t = setContext s s.cur (completed k st)) ∨
       (∃ p n, v = .pass p n ∧ k.ustep.toNat = 0 ∧ t = setContext s s.cur (advanced k)) ∨
       (∃ p n j x, v = .pass p n ∧ k.ustep.toNat = j + 1 ∧ (script n)[j]? = some x ∧ j + 1 = (script n).length ∧
          t = setContext (txnState s k p x) s.cur (completed (txnContext s k p x) .success)) ∨
       (∃ p n j x, v = .pass p n ∧ k.ustep.toNat = j + 1 ∧ (script n)[j]? = some x ∧ j + 1 ≠ (script n).length ∧
          t = setContext (txnState s k p x) s.cur (advanced (txnContext s k p x)))) := by
  unfold commandStep at h
  split at h
  · cases h
  · rename_i k hk
    refine ⟨k, hk, ?_⟩
    split at h
    · rename_i st hu
      cases h; exact .inl ⟨st, rfl, hu, rfl⟩
    · cases h
    · rename_i p n hu
      cases h; exact .inr (.inl ⟨p, n, rfl, hu, rfl⟩)
    · rename_i p n j hu
      split at h
      · cases h
      · rename_i x hx
        split at h
        · rename_i hl
          cases h; exact .inr (.inr (.inl ⟨p, n, j, x, rfl, hu, hx, hl, rfl⟩))
        · rename_i hl
          cases h; exact .inr (.inr (.inr ⟨p, n, j, x, rfl, hu, hx, hl, rfl⟩))

/-- A step of a command is never a refusal. -/
theorem commandStep_ne_refused (v : Verdict) (script : Fin 16 → List Txn) (s : State) (r : Refusal) :
    commandStep v script s ≠ .refused r := by
  unfold commandStep
  split
  · simp
  · split
    · simp
    · simp
    · simp
    · split
      · simp
      · split <;> simp

/-- A rejected command at its first step completes with the status. -/
theorem commandStep_reject (st : Status) (script : Fin 16 → List Txn) (s : State) (k : Context)
    (hk : s.ctxs[s.cur]? = some k) (hu : k.ustep = 0) :
    commandStep (.reject st) script s = .next (setContext s s.cur (completed k st)) := by
  have h0 : k.ustep.toNat = 0 := by simp [hu]
  simp only [commandStep, hk]
  rw [h0]

/-- A valid command at its first step moves on. -/
theorem commandStep_pass_start (p : Fin 8) (n : Fin 16) (script : Fin 16 → List Txn) (s : State) (k : Context)
    (hk : s.ctxs[s.cur]? = some k) (hu : k.ustep = 0) :
    commandStep (.pass p n) script s = .next (setContext s s.cur (advanced k)) := by
  have h0 : k.ustep.toNat = 0 := by simp [hu]
  simp only [commandStep, hk]
  rw [h0]

/-- A valid command at step `j + 1` performs transaction `j`. -/
theorem commandStep_pass_txn (p : Fin 8) (n : Fin 16) (script : Fin 16 → List Txn) (s : State) (k : Context)
    (j : Nat) (x : Txn) (hk : s.ctxs[s.cur]? = some k) (hu : k.ustep.toNat = j + 1) (hx : (script n)[j]? = some x) :
    commandStep (.pass p n) script s =
      if j + 1 = (script n).length then
        .next (setContext (txnState s k p x) s.cur (completed (txnContext s k p x) .success))
      else .next (setContext (txnState s k p x) s.cur (advanced (txnContext s k p x))) := by
  simp only [commandStep, hk]
  rw [hu]
  simp only [hx]

/-- One step of any command is `commandStep` on its verdict and its transactions. -/
theorem exec_eq_commandStep (i : Instr) (s : State) :
    exec i s = commandStep (validate i) (fun n => scriptOf s.params n i) s := by
  cases i <;> rfl

/-! ## Issue and the direct port -/

/-- An issue answers a next state exactly on an idle context. -/
theorem issueCommand_next (s t : State) (c : Nat) (w : Word) (h : issueCommand s c w = .next t) :
    ∃ k, s.ctxs[c]? = some k ∧ k.busy = false ∧ t = setContext s c (issued k w) := by
  unfold issueCommand at h
  split at h
  · cases h
  · rename_i k hk
    split at h
    · cases h
    · rename_i hb
      cases h; exact ⟨k, hk, by simpa using hb, rfl⟩

/-- A direct-port read answers a next state exactly on valid selectors. -/
theorem directRead_next (s t : State) (p r : Nat) (h : directRead s p r = .next t) :
    ∃ b x, bankOfId p = some b ∧ regOfId r = some x ∧ t = portRead s b x := by
  unfold directRead at h
  split at h
  · rename_i b x hb hx
    cases h; exact ⟨b, x, hb, hx, rfl⟩
  · cases h

/-- A direct-port write answers a next state exactly on valid selectors. -/
theorem directWrite_next (s t : State) (p r : Nat) (v : Word) (h : directWrite s p r v = .next t) :
    ∃ b x, bankOfId p = some b ∧ regOfId r = some x ∧ t = regWrite s b x v := by
  unfold directWrite at h
  split at h
  · rename_i b x hb hx
    cases h; exact ⟨b, x, hb, hx, rfl⟩
  · cases h

/-- A platform read answers a next state exactly for a whole word at a register's address. -/
theorem platformRead_next (s t : State) (addr size : Nat) (h : platformRead s addr size = .next t) :
    ∃ l, size = 4 ∧ regAt s.params addr = some l ∧ t = portRead s l.1 l.2 := by
  unfold platformRead at h
  split at h
  · rename_i hs
    split at h
    · rename_i l hl
      cases h; exact ⟨l, hs, hl, rfl⟩
    · cases h
  · cases h

/-- A platform write answers a next state exactly for a whole word at a register's address. -/
theorem platformWrite_next (s t : State) (addr size : Nat) (v : Word) (h : platformWrite s addr size v = .next t) :
    ∃ l, size = 4 ∧ regAt s.params addr = some l ∧ t = regWrite s l.1 l.2 v := by
  unfold platformWrite at h
  split at h
  · rename_i hs
    split at h
    · rename_i l hl
      cases h; exact ⟨l, hs, hl, rfl⟩
    · cases h
  · cases h

end Sys2Proof.Machine
end

