-- ==== Sys2Proof/Laws/PerInstr.lean ====
section
/-! SUPPORT. Per-instruction laws: the canonical word of a command lies in its row of the opcode map
(30_encoding.md R104). -/

namespace Sys2Proof.Laws.OpcodeRowHolds

/-- The canonical word of a command meets the mask and pattern of the row of its mnemonic. -/
def Statement (i : Instr) : Prop :=
  ∃ row ∈ opcodeMap, row.mnemonic = mnemonic i ∧ rowMatches (encode i) row = true

/-- The masked bits of a word of the layout are those of its `OP` field. -/
theorem op_masked (c : Cmd) (op : BitVec 2) (h : c.op = op) :
    wordOfCmd c &&& 0xC0000000 = op ++ (0 : BitVec 30) := by
  subst h
  apply BitVec.eq_of_getLsbD_eq
  intro i hi
  simp only [wordOfCmd, BitVec.getLsbD_and, BitVec.getLsbD_append]
  interval_cases i <;> simp

/-- The masked bits of a word of the layout are those of its `OP` and `DV` fields. -/
theorem opDv_masked (c : Cmd) (op : BitVec 2) (dv : BitVec 1) (h : c.op = op) (hd : c.dv = dv) :
    wordOfCmd c &&& 0xE0000000 = op ++ dv ++ (0 : BitVec 29) := by
  subst h hd
  apply BitVec.eq_of_getLsbD_eq
  intro i hi
  simp only [wordOfCmd, BitVec.getLsbD_and, BitVec.getLsbD_append]
  interval_cases i <;> simp

theorem init (port pin : BitVec 8) (mode pull : BitVec 2) (otype : BitVec 1) (speed : BitVec 2) (af : BitVec 4) :
    Statement (.init port pin mode pull otype speed af) :=
  ⟨opcodeMap[0], by decide, rfl, decide_eq_true ((opDv_masked _ 0 1 rfl rfl).trans (by decide))⟩

theorem initNull : Statement .initNull := ⟨opcodeMap[1], by decide, rfl, by decide⟩

theorem set (port pin : BitVec 8) (level : BitVec 2) : Statement (.set port pin level) :=
  ⟨opcodeMap[2], by decide, rfl, decide_eq_true ((op_masked _ 1 rfl).trans (by decide))⟩

theorem tgl (port pin : BitVec 8) : Statement (.tgl port pin) :=
  ⟨opcodeMap[3], by decide, rfl, decide_eq_true ((op_masked _ 2 rfl).trans (by decide))⟩

theorem rd (port pin : BitVec 8) : Statement (.rd port pin) :=
  ⟨opcodeMap[4], by decide, rfl, decide_eq_true ((op_masked _ 3 rfl).trans (by decide))⟩

end Sys2Proof.Laws.OpcodeRowHolds
end

