-- ==== Sys2Proof/Laws/Step.lean ====
section
/-! SUPPORT. What a step can be, said once: a step of a command or a move of another agent. -/

namespace Sys2Proof.Machine

/-- The step of a prescribed move that is no command's is the outcome of that move. -/
theorem step_of_input_done (s : State) (x : Input) (rest : List Input) (o : Host.Outcome State Fault Refusal)
    (hx : s.inputs = x :: rest) (h : takeInput { s with inputs := rest } x = .done o) : step s = o := by
  simp [step, nextMove, hx, h]

/-- A context that moves exists and has a command in flight. -/
theorem runContext_command (s t : State) (c : Nat) (i : Instr) (h : runContext s c = .command i t) :
    ∃ k, s.ctxs[c]? = some k ∧ k.busy = true ∧ i = decodeWord k.cmd ∧ t = { s with cur := c } := by
  unfold runContext at h
  split at h
  · cases h
  · rename_i k hk
    split at h
    · rename_i hb
      cases h; exact ⟨k, hk, hb, rfl, rfl⟩
    · cases h

/-- A choice of a context that is no step of a command is a refusal. -/
theorem runContext_done (s : State) (c : Nat) (o : Host.Outcome State Fault Refusal)
    (h : runContext s c = .done o) : ∃ r, o = .refused r := by
  unfold runContext at h
  split at h
  · cases h; exact ⟨_, rfl⟩
  · split at h
    · cases h
    · cases h; exact ⟨_, rfl⟩

/-- A context with a command in flight moves. -/
theorem runContext_busy (s : State) (c : Nat) (k : Context) (hk : s.ctxs[c]? = some k) (hb : k.busy = true) :
    runContext s c = .command (decodeWord k.cmd) { s with cur := c } := by
  simp [runContext, hk, hb]

/-- `busyContexts` lists exactly the contexts with a command in flight. -/
theorem mem_busyContexts (s : State) (c : Nat) :
    c ∈ busyContexts s ↔ ∃ k, s.ctxs[c]? = some k ∧ k.busy = true := by
  unfold busyContexts
  simp only [List.mem_filter, List.mem_range]
  constructor
  · rintro ⟨hc, h⟩
    refine ⟨s.ctxs[c], List.getElem?_eq_getElem hc, ?_⟩
    simpa [List.getElem?_eq_getElem hc] using h
  · rintro ⟨k, hk, hb⟩
    exact ⟨(List.getElem?_eq_some_iff.mp hk).1, by simp [hk, hb]⟩

/-- A move that is no command's and answers a next state is one of: an issue on an idle context; a direct-port or platform transaction; a change of `BANK_EN`; a reset. -/
theorem takeInput_done_next (s t : State) (x : Input) (h : takeInput s x = .done (.next t)) :
    (∃ c w, x = .issue c w ∧ issueCommand s c w = .next t) ∨
    (∃ p r, x = .dpRead p r ∧ directRead s p r = .next t) ∨
    (∃ p r v, x = .dpWrite p r v ∧ directWrite s p r v = .next t) ∨
    (∃ a n, x = .busRead a n ∧ platformRead s a n = .next t) ∨
    (∃ a n v, x = .busWrite a n v ∧ platformWrite s a n v = .next t) ∨
    (∃ p e, x = .bankEn p e ∧ t = { s with bankEn := s.bankEn.set p e }) ∨
    (x = .rst ∧ t = resetBlock s) := by
  cases x with
  | issue c w =>
    simp only [takeInput, Selection.done.injEq] at h
    exact .inl ⟨c, w, rfl, h⟩
  | run c =>
    obtain ⟨r, hr⟩ := runContext_done s c _ h
    cases hr
  | dpRead p r =>
    simp only [takeInput, Selection.done.injEq] at h
    exact .inr (.inl ⟨p, r, rfl, h⟩)
  | dpWrite p r v =>
    simp only [takeInput, Selection.done.injEq] at h
    exact .inr (.inr (.inl ⟨p, r, v, rfl, h⟩))
  | busRead a n =>
    simp only [takeInput, Selection.done.injEq] at h
    exact .inr (.inr (.inr (.inl ⟨a, n, rfl, h⟩)))
  | busWrite a n v =>
    simp only [takeInput, Selection.done.injEq] at h
    exact .inr (.inr (.inr (.inr (.inl ⟨a, n, v, rfl, h⟩))))
  | bankEn p e =>
    simp only [takeInput, Selection.done.injEq, Host.Outcome.next.injEq] at h
    exact .inr (.inr (.inr (.inr (.inr (.inl ⟨p, e, rfl, h.symm⟩)))))
  | rst =>
    simp only [takeInput, Selection.done.injEq, Host.Outcome.next.injEq] at h
    exact .inr (.inr (.inr (.inr (.inr (.inr ⟨rfl, h.symm⟩)))))

/-- A step of a command is one by a context with that command in flight; choosing it changes nothing a command or the
environment can see but the move consumed and, where the choice was free, the number of draws. -/
theorem nextMove_command (s t : State) (i : Instr) (h : nextMove s = .command i t) :
    ∃ k, s.ctxs[t.cur]? = some k ∧ k.busy = true ∧ i = decodeWord k.cmd ∧ t.ctxs = s.ctxs ∧ t.banks = s.banks ∧
      t.params = s.params ∧ t.bankEn = s.bankEn ∧ t.dpValue = s.dpValue ∧ t.inputs = s.inputs.tail := by
  unfold nextMove at h
  split at h
  · rename_i x rest hx
    cases x with
    | run c =>
      obtain ⟨k, hk, hb, hi, rfl⟩ := runContext_command _ _ _ _ h
      exact ⟨k, hk, hb, hi, rfl, rfl, rfl, rfl, rfl, by simp [hx]⟩
    | issue c w => cases h
    | dpRead p r => cases h
    | dpWrite p r v => cases h
    | busRead a n => cases h
    | busWrite a n v => cases h
    | bankEn p e => cases h
    | rst => cases h
  · rename_i hx
    split at h
    · cases h
    · obtain ⟨k, hk, hb, hi, rfl⟩ := runContext_command _ _ _ _ h
      exact ⟨k, hk, hb, hi, rfl, rfl, rfl, rfl, rfl, by simp [hx]⟩
    · obtain ⟨k, hk, hb, hi, rfl⟩ := runContext_command _ _ _ _ h
      exact ⟨k, hk, hb, hi, rfl, rfl, rfl, rfl, rfl, by simp [hx]⟩

/-- A next state that is no command's comes from a prescribed move, or the run is over and nothing changes. -/
theorem nextMove_done_next (s t : State) (h : nextMove s = .done (.next t)) :
    (s.inputs = [] ∧ busyContexts s = [] ∧ t = s) ∨
    (∃ x rest, s.inputs = x :: rest ∧ takeInput { s with inputs := rest } x = .done (.next t)) := by
  unfold nextMove at h
  split at h
  · rename_i x rest hx
    exact .inr ⟨x, rest, hx, h⟩
  · rename_i hx
    split at h
    · rename_i hb
      cases h
      exact .inl ⟨hx, hb, rfl⟩
    · obtain ⟨r, hr⟩ := runContext_done _ _ _ h
      cases hr
    · obtain ⟨r, hr⟩ := runContext_done _ _ _ h
      cases hr

end Sys2Proof.Machine
end

