-- ==== Sys2Proof/Tests/Slice0.lean ====
section
/-! SUPPORT. The model's own tests: decoding of words written out from 30_encoding.md R102, the well-formedness smoke, one
or two single steps per command with expected values from 95_test_vectors.md, and for every statement with hypotheses a
concrete state and operands that meet them. -/

open Sys2Proof Sys2Proof.Machine

/-! ## Decoding: the layout `oo d ll aaaa ss t uu mm pppppppp nnnnnnnn` written out (30_encoding.md R102) -/

theorem test_decode_init_afBoundary :
    decodeWord 0b00_1_00_1010_10_1_01_10_00000001_00000111#32 = .init 1 7 0b10 0b01 1 0b10 10 := by decide

theorem test_decode_init_everyField :
    decodeWord 0b00_1_00_1111_11_1_01_10_00000111_00001111#32 = .init 7 15 0b10 0b01 1 0b11 15 := by decide

theorem test_decode_initNull_ignoresPort :
    decodeWord 0b00_0_00_0000_00_0_00_01_00001000_00000000#32 = .initNull := by decide

theorem test_decode_set_levelThree :
    decodeWord 0b01_0_11_1111_11_1_11_11_00000000_00000101#32 = .set 0 5 3 := by decide

theorem test_decode_tgl :
    decodeWord 0b10_0_00_0000_00_0_00_00_00000010_00001101#32 = .tgl 2 13 := by decide

theorem test_decode_rd_ignoredOnes :
    decodeWord 0b11_1_11_1111_11_1_11_11_00000000_00000101#32 = .rd 0 5 := by decide

theorem test_decode_notOneWord :
    (decode [], decode [0, 0]) = (.error .noWord, .error .notOneWord) := by decide

theorem test_decodeTableWord_rd : decodeTableWord 32 0xC000070F = some (.rd 7 15) := by decide

theorem test_canonical : (isCanonical 0x48000005, isCanonical 0x6FFF0005) = (true, false) := by decide

theorem test_assemble_names :
    assembleWord Config.defaults
      ⟨"INIT", [.name "B", .num 8, .name "AF", .name "DOWN", .name "PP", .name "MED", .num 5]⟩ = some 0x22AA0108 := by
  decide

theorem test_assemble_refuses_wide_number :
    assemble Config.defaults ⟨"SET", [.name "A", .num 256, .name "HIGH"]⟩ = none := by decide

/-! ## Well-formedness: each check refuses an ill-formed platform -/

/-- Legal parameters to spoil, one field at a time. -/
def tParams : Params := Config.defaults

theorem test_wellFormed_every_command : Instr.wellFormed (.set 255 255 3) = true := by decide
theorem test_legal_refuses_equal_modes : { tParams with modeAF := 0b01 }.modesDistinct = false := by decide
theorem test_legal_refuses_equal_pulls : { tParams with pullUp := 0b00 }.pullsDistinct = false := by decide
theorem test_legal_refuses_equal_speeds : { tParams with speedHigh := 0b11 }.speedsDistinct = false := by decide
theorem test_legal_refuses_equal_addresses :
    { tParams with off := #v[0, 4, 8, 12, 16, 20, 24, 32, 32] }.addressesDistinct = false := by decide
theorem test_legal_refuses_unaligned_address :
    { tParams with off := #v[0, 4, 8, 12, 16, 20, 24, 32, 38] }.addressesAligned = false := by decide

/-! ## Small states -/

/-- A bank of zeros. -/
def tBank : Bank := { mode := 0, otype := 0, speed := 0, pull := 0, odata := 0, afl := 0, afh := 0 }

/-- A context with command `w` in flight at step `u`, `tmp` holding `v`. -/
def tContext (w : Word) (u : BitVec 5) (v : Word) : Context :=
  { busy := true, cmd := w, ustep := u, tmp := v, status := .null, rval := 1, respValid := false }

/-- An idle context. -/
def tIdle : Context := { tContext 0 0 0 with busy := false }

/-- A state with bank `b` eight times, all enabled, and the given contexts. -/
def tState (b : Bank) (ks : List Context) : State :=
  { params := tParams, banks := #v[b, b, b, b, b, b, b, b], ctxs := ks,
    bankEn := #v[true, true, true, true, true, true, true, true], inputs := [], cur := 0, draws := 0, dpValue := 0 }

/-- The state of an outcome, if there is one. -/
def tNext (o : Host.Outcome State Fault Refusal) : Option State :=
  match o with
  | .next t => some t
  | _ => none

/-! ## Single steps (expected values from 95_test_vectors.md) -/

/-- I7, the `MODE` write: `0x12345678` becomes `0x52345678`. -/
theorem test_init_mode_write :
    (tNext (exec (.init 7 15 1 2 1 2 15) (tState tBank [tContext 0x27D9070F 2 0x12345678]))).map
      (fun t => (t.banks[7].mode, t.banks[6].mode)) = some (0x52345678#32, 0#32) := by decide

/-- V5, the last step on pin 7: `AFL` `0x12345678` becomes `0x92345678` and the command completes. -/
theorem test_init_af_write_completes :
    (tNext (exec (.init 1 7 2 0 0 0 9) (tState tBank [tContext 0x24820107 10 0x12345678]))).map
      (fun t => (t.banks[1].afl, t.ctxs.map (fun k => (k.status, k.busy, k.respValid)))) =
      some (0x92345678#32, [(.success, false, true)]) := by decide

/-- FL2: status 2 and no register changed. -/
theorem test_initNull_status :
    (tNext (exec .initNull (tState tBank [tContext 0x00010800 0 0]))).map
      (fun t => (t.ctxs.map (fun k => (k.status.code, k.rval)), t.banks)) =
      some ([(2#2, 1#1)], (tState tBank []).banks) := by decide

/-- S4: `SET H, 15, LOW` clears bit 15. -/
theorem test_set_low_clears :
    (tNext (exec (.set 7 15 0) (tState { tBank with odata := 0x8000 } [tContext 0x4000070F 1 0]))).map
      (fun t => t.banks[7].odata) = some 0#16 := by decide

/-- FL9: level 3 fails. -/
theorem test_set_level_three_fails :
    (tNext (exec (.set 0 0 3) (tState tBank [tContext 0x58000000 0 0]))).map
      (fun t => t.ctxs.map (fun k => k.status.code)) = some [1#2] := by decide

/-- T1: the write of `TGL C, 13`. -/
theorem test_tgl_write :
    (tNext (exec (.tgl 2 13) (tState tBank [tContext 0x8000020D 2 0xA5A5]))).map (fun t => t.banks[2].odata) =
      some 0x85A5#16 := by decide

/-- RD2: an enabled push-pull output with `ODATA` bit 5 clear reads Low. -/
theorem test_rd_reads_driven_level :
    (tNext (exec (.rd 0 5) (tState { tBank with mode := 0x400, odata := 0xFFDF } [tContext 0xC0000005 1 0]))).map
      (fun t => t.ctxs.map (fun k => (k.rval, k.status))) = some [(0#1, .success)] := by decide

/-- RD3: an input pin reads the environment's draw, whatever it is. -/
theorem test_rd_reads_environment :
    (tNext (exec (.rd 0 0) (tState tBank [tContext 0xC0000000 1 0]))).map
      (fun t => t.ctxs.map (fun k => k.rval)) = some [BitVec.ofBool (Config.env 0 0 0)] := by
  rfl

/-- DP1: set wins. -/
theorem test_setrst_set_wins : setReset 0 0x00010001 = 1 := by decide

/-- The first step after reset runs a presented command. -/
theorem test_reset_runs_a_command :
    (tNext (step (State.reset.withFetchWord 32 0x20610005))).map (fun t => t.ctxs.map (fun k => (k.busy, k.cmd))) =
      some [(true, 0x20610005#32), (false, (Config.latches 0 1).cmd)] := by rfl

/-! ## Witnesses: concrete values that meet the hypotheses of each statement -/

/-- The executing context of the witnesses, at step `u`. -/
def wState (u : BitVec 5) : State := tState tBank [tContext 0 u 0, tIdle]

theorem witness_IgnoredFieldsHaveNoEffect :
    0x6FFF0005#32 &&& usedMask (decodeWord 0x6FFF0005) = 0x48000005#32 &&& usedMask (decodeWord 0x6FFF0005) := by decide

theorem witness_OpcodeRowsPartitionAllWords :
    ∃ row ∈ opcodeMap, 0xFFFFFFFF#32 &&& row.mask = row.pattern := by decide

/-- A field of each width that ends at bit 31, with its largest value, and a disjoint field on either side. -/
theorem witness_FieldUpdateLaws :
    (31 + 1 ≤ 32 ∧ (1#32).toNat < 2 ^ 1) ∧ (30 + 2 ≤ 32 ∧ (3#32).toNat < 2 ^ 2 ∧ (28 + 2 ≤ 30)) ∧
    (28 + 4 ≤ 32 ∧ (15#32).toNat < 2 ^ 4 ∧ 24 + 4 ≤ 28) ∧ (0 + 4 ≤ 32 ∧ 0 + 4 ≤ 4) ∧ (31 : Nat) ≤ 31 := by decide

theorem witness_FieldPlacesFitTheirRegisters : (7 : Fin 16).val < 8 ∧ 8 ≤ (8 : Fin 16).val := by decide

theorem witness_FullRegistersReadAndStoreAllBits : (wState 0).bankEn[(7 : Fin 8)] = true := by decide

theorem witness_IdataIgnoresWritesSetrstReadsZero : (wState 0).bankEn[(0 : Fin 8)] = true := by decide

theorem witness_HalfRegistersDiscardTheUpperHalf :
    let s := tState { tBank with mode := 0x40000000 } []
    s.bankEn[(7 : Fin 8)] = true ∧ s.banks[(7 : Fin 8)].mode.extractLsb' (2 * 15) 2 = 0b01#2 ∧
      s.banks[(7 : Fin 8)].otype.getLsbD 15 = false := by decide

/-- Pins at the ends of the two ranges of `IDATA` bits. -/
theorem witness_IdataShowsThePadLevels :
    (wState 0).bankEn[(0 : Fin 8)] = true ∧ (0 : Nat) < 16 ∧ (15 : Nat) < 16 ∧ (16 : Nat) ≤ 16 := by decide

/-- Each case of a `SETRST` bit, at pins 0 and 15. -/
theorem witness_SetrstWriteActsOnOdata :
    (0x80008001#32).getLsbD 15 = true ∧ (0x80000001#32).getLsbD 15 = false ∧ (0x80000001#32).getLsbD (15 + 16) = true ∧
    (0x80008001#32).getLsbD 1 = false ∧ (0x80008001#32).getLsbD (1 + 16) = false ∧
    Txn.store .setrst 0x80000000 ∈ scriptOf tParams 15 (.set 0 15 0) ∧ (wState 0).bankEn[(0 : Fin 8)] = true := by decide

theorem witness_DisabledBankIgnoresCommands :
    let s := { wState 2 with bankEn := #v[false, true, true, true, true, true, true, true] }
    s.bankEn[(0 : Fin 8)] = false ∧ validate (.tgl 0 15) = .pass 0 15 ∧ (tNext (exec (.tgl 0 15) s)).isSome = true := by
  decide

/-- A mode of each of the three kinds. -/
theorem witness_CommandsReachOnlyTheTabledRegisters :
    (0b00#2 ≠ 0b01#2 ∧ 0b00#2 ≠ tParams.modeAF) ∧ 0b01#2 ≠ tParams.modeAF ∧ 0b10#2 = tParams.modeAF := by decide

theorem witness_InitNullCompletesWithNull :
    (wState 0).ctxs[(wState 0).cur]? = some (tContext 0 0 0) ∧ (tContext 0 0 0).ustep = 0 ∧
    (0x1FFFFFFF#32).extractLsb 31 30 = 0b00#2 ∧ (0x1FFFFFFF#32).getLsbD 29 = false := by decide

theorem witness_ValidationDecidesTheFirstStep :
    (wState 0).ctxs[(wState 0).cur]? = some (tContext 0 0 0) ∧ (tContext 0 0 0).ustep = 0 := by decide

/-- Every row of `INIT` with `RMW_SPLIT = 1` has its state; the modes are Input (not driven), Output and
AlternateFunction. -/
theorem witness_InitStepList :
    (∀ u : Fin 11, (wState (BitVec.ofNat 5 u.val)).ctxs[(wState (BitVec.ofNat 5 u.val)).cur]? =
        some (tContext 0 (BitVec.ofNat 5 u.val) 0)) ∧
    (wState 0).params.rmwSplit = .one ∧ (7#8).toNat = (7 : Fin 8).val ∧ (15#8).toNat = (15 : Fin 16).val ∧
    ¬(0b00#2 = 0b01#2 ∨ 0b00#2 = (wState 0).params.modeAF) ∧ 0b01#2 ≠ (wState 0).params.modeAF ∧
    0b10#2 = (wState 0).params.modeAF := by decide

/-- The state of the witnesses with `RMW_SPLIT = 2`. -/
def wSplit (u : BitVec 5) : State := { wState u with params := { tParams with rmwSplit := .two } }

/-- The four steps of the last field of an alternate-function `INIT` of pin 15 (the list of the statement, element 4). -/
theorem witness_InitSplitStepList :
    (∀ u : Fin 21, (wSplit (BitVec.ofNat 5 u.val)).ctxs[(wSplit (BitVec.ofNat 5 u.val)).cur]? =
        some (tContext 0 (BitVec.ofNat 5 u.val) 0)) ∧
    (wSplit 0).params.rmwSplit = .two ∧ (7#8).toNat = (7 : Fin 8).val ∧ (15#8).toNat = (15 : Fin 16).val ∧
    (let mode := 0b10#2
     ([(.mode, 2, 2 * 15, mode.setWidth 32), (.pull, 2, 2 * 15, 0)] ++
      (if mode = 0b01#2 ∨ mode = (wSplit 0).params.modeAF then [(.otype, 1, 15, 0), (.speed, 2, 2 * 15, 0)] else []) ++
      (if mode = (wSplit 0).params.modeAF then [(if (15 : Nat) < 8 then .afl else .afh, 4, 15 % 8 * 4, 15)] else []) :
        List (Reg × Nat × Nat × Word))[4]? = some (.afh, 4, 28, 15)) ∧
    (17#5).toNat = 4 * 4 + 1 ∧ (18#5).toNat = 4 * 4 + 2 ∧ (19#5).toNat = 4 * 4 + 3 ∧ (20#5).toNat = 4 * 4 + 4 := by
  decide

theorem witness_SplitUpdateShowsAZeroField :
    (wSplit 2).ctxs[(wSplit 2).cur]? = some (tContext 0 2 0) ∧ (wSplit 2).params.rmwSplit = .two ∧
    (7#8).toNat = (7 : Fin 8).val ∧ (15#8).toNat = (15 : Fin 16).val ∧ (wSplit 2).bankEn[(7 : Fin 8)] = true := by decide

/-- Each row's state, the largest valid operands and the smallest invalid ones. -/
theorem witness_SetStepList :
    (∀ u : Fin 2, (wState (BitVec.ofNat 5 u.val)).ctxs[(wState (BitVec.ofNat 5 u.val)).cur]? =
        some (tContext 0 (BitVec.ofNat 5 u.val) 0)) ∧
    (8 ≤ (8#8).toNat ∧ 16 ≤ (16#8).toNat) ∧ ((7#8).toNat < 8 ∧ (15#8).toNat < 16) ∧
    (7#8).toNat = (7 : Fin 8).val ∧ (15#8).toNat = (15 : Fin 16).val ∧ 2 ≤ (2#2).toNat ∧ (1#2).toNat < 2 := by decide

theorem witness_TglStepList :
    (∀ u : Fin 3, (wState (BitVec.ofNat 5 u.val)).ctxs[(wState (BitVec.ofNat 5 u.val)).cur]? =
        some (tContext 0 (BitVec.ofNat 5 u.val) 0)) ∧
    (8 ≤ (8#8).toNat ∧ 16 ≤ (16#8).toNat) ∧ ((7#8).toNat < 8 ∧ (15#8).toNat < 16) ∧
    (7#8).toNat = (7 : Fin 8).val ∧ (15#8).toNat = (15 : Fin 16).val := by decide

theorem witness_RdStepList :
    (∀ u : Fin 2, (wState (BitVec.ofNat 5 u.val)).ctxs[(wState (BitVec.ofNat 5 u.val)).cur]? =
        some (tContext 0 (BitVec.ofNat 5 u.val) 0)) ∧
    (8 ≤ (8#8).toNat ∧ 16 ≤ (16#8).toNat) ∧ ((7#8).toNat < 8 ∧ (15#8).toNat < 16) ∧
    (7#8).toNat = (7 : Fin 8).val ∧ (15#8).toNat = (15 : Fin 16).val := by decide

theorem witness_SetDrivesExactlyOneBit :
    atStart (wState 0) (tContext 0 0 0) ∧ (7#8).toNat = (7 : Fin 8).val ∧ (15#8).toNat = (15 : Fin 16).val ∧
    (wState 0).bankEn[(7 : Fin 8)] = true ∧ (1#2).toNat < 2 := by decide

theorem witness_TglFlipsExactlyOneBit :
    atStart (wState 0) (tContext 0 0 0) ∧ (7#8).toNat = (7 : Fin 8).val ∧ (15#8).toNat = (15 : Fin 16).val ∧
    (wState 0).bankEn[(7 : Fin 8)] = true := by decide

theorem witness_TglTwiceRestoresTheBanks :
    atStart (wState 0) (tContext 0 0 0) ∧ (7#8).toNat = (7 : Fin 8).val ∧ (15#8).toNat = (15 : Fin 16).val ∧
    (wState 0).bankEn[(7 : Fin 8)] = true := by decide

theorem witness_RdReturnsThePadLevel :
    atStart (wState 0) (tContext 0 0 0) ∧ (7#8).toNat = (7 : Fin 8).val ∧ (15#8).toNat = (15 : Fin 16).val ∧
    (wState 0).bankEn[(7 : Fin 8)] = true := by decide

theorem witness_InitNetEffect :
    atStart (wState 0) (tContext 0 0 0) ∧ (7#8).toNat = (7 : Fin 8).val ∧ (15#8).toNat = (15 : Fin 16).val ∧
    (wState 0).bankEn[(7 : Fin 8)] = true := by decide

/-- A rejected and a valid command. -/
theorem witness_EveryCommandCompletes :
    atStart (wState 0) (tContext 0 0 0) ∧ validate (.rd 8 0) = .reject .fail ∧ validate (.rd 7 15) = .pass 7 15 := by
  decide

theorem witness_SetThenReadYieldsTheLevel :
    let s := tState { tBank with mode := 0x40000000 } [tContext 0 0 0]
    atStart s (tContext 0 0 0) ∧ (7#8).toNat = (7 : Fin 8).val ∧ (15#8).toNat = (15 : Fin 16).val ∧
    (1#2).toNat < 2 ∧ s.bankEn[(7 : Fin 8)] = true ∧ s.banks[(7 : Fin 8)].mode.extractLsb' (2 * 15) 2 = 0b01#2 ∧
    s.banks[(7 : Fin 8)].otype.getLsbD 15 = false := by decide

/-- A step of each command that answers a next state; another context; a bank no command names. -/
theorem witness_CommandStepFrame :
    (tNext (exec (.init 7 15 2 0 0 0 1) (wState 10))).isSome = true ∧
    (tNext (exec .initNull (wState 0))).isSome = true ∧ (tNext (exec (.set 7 15 1) (wState 1))).isSome = true ∧
    (tNext (exec (.tgl 7 15) (wState 2))).isSome = true ∧ (tNext (exec (.rd 7 15) (wState 1))).isSome = true ∧
    (wState 10).ctxs[(wState 10).cur]? = some (tContext 0 10 0) ∧ (1 : Nat) ≠ (wState 10).cur ∧
    validate (.tgl 7 15) = .pass 7 15 ∧ (7 : Fin 8) ≠ 0 := by decide

/-- Steps with a not driven mode, with Output, and with AlternateFunction on pins 7 and 8. -/
theorem witness_InitFrame :
    (tNext (exec (.init 7 15 0 0 0 0 1) (wState 4))).isSome = true ∧
    (tNext (exec (.init 7 15 1 0 0 0 1) (wState 8))).isSome = true ∧
    (tNext (exec (.init 7 7 2 0 0 0 1) (wState 10))).isSome = true ∧
    (tNext (exec (.init 7 8 2 0 0 0 1) (wState 10))).isSome = true ∧
    (wState 4).ctxs[(wState 4).cur]? = some (tContext 0 4 0) ∧ (7#8).toNat ≠ (0 : Fin 8).val ∧
    (0b00#2 ≠ 0b01#2 ∧ 0b00#2 ≠ (wState 4).params.modeAF) ∧ 0b01#2 ≠ (wState 4).params.modeAF ∧
    8 ≤ (8#8).toNat ∧ (7#8).toNat < 8 := by decide

theorem witness_DataCommandsFrame :
    (tNext (exec (.set 7 15 1) (wState 1))).isSome = true ∧ (tNext (exec (.tgl 7 15) (wState 2))).isSome = true ∧
    (tNext (exec (.rd 7 15) (wState 1))).isSome = true ∧
    (wState 1).ctxs[(wState 1).cur]? = some (tContext 0 1 0) ∧ (7#8).toNat ≠ (0 : Fin 8).val ∧
    (14 : Nat) ≠ (15#8).toNat := by decide

/-- Context 0 moves by a prescribed move, and by being the only busy one. -/
theorem witness_StepRunsTheLatchedCommand :
    (wState 0).ctxs[0]? = some (tContext 0 0 0) ∧ (tContext 0 0 0).busy = true ∧
    { wState 0 with inputs := [.run 0] }.inputs = .run 0 :: [] ∧ (wState 0).inputs = [] ∧
    (∀ d < 4, d ≠ 0 → ∀ kd ∈ (wState 0).ctxs[d]?, kd.busy = false) := by decide

theorem witness_PresentedCommandRunsNext : (wState 0).ctxs = tContext 0 0 0 :: [tIdle] := by decide

/-- An idle and a busy context to issue on. -/
theorem witness_IssueLatchesTheWord :
    let s := { wState 0 with inputs := [.issue 1 0x48000005] }
    let b := { wState 0 with inputs := [.issue 0 0x48000005] }
    (s.ctxs[1]? = some tIdle ∧ tIdle.busy = false ∧ s.inputs = .issue 1 0x48000005 :: []) ∧
    (b.ctxs[0]? = some (tContext 0 0 0) ∧ (tContext 0 0 0).busy = true ∧
      b.inputs = .issue 0 0x48000005 :: []) := by decide

/-- A machine with every context idle, and one with a busy context. -/
theorem witness_SilentEnvironmentLetsABusyContextMove :
    (tState tBank [tIdle]).inputs = [] ∧ (∀ c < 4, ∀ k ∈ (tState tBank [tIdle]).ctxs[c]?, k.busy = false) ∧
    (wState 0).inputs = [] ∧ (wState 0).ctxs[0]? = some (tContext 0 0 0) ∧ (tContext 0 0 0).busy = true := by decide

/-- The last valid and the first invalid selectors. -/
theorem witness_DirectPortTransactions :
    (7 = (7 : Fin 8).val ∧ 8 = regId .afh) ∧ (8 ≤ 8 ∧ 9 ≤ 9) ∧
    { wState 0 with inputs := [.dpRead 7 8] }.inputs = .dpRead 7 8 :: [] ∧
    { wState 0 with inputs := [.dpWrite 8 0 0] }.inputs = .dpWrite 8 0 0 :: [] := by decide

/-- The last of the 72 addresses; a byte and a double-word access; the hole of the default map below `AFL` of bank A and
the address after the last; a halfword address. -/
theorem witness_PlatformAddressesNameRegisters :
    (wState 0).params.legal = true ∧ 0x40021C24 = regAddress (wState 0).params 7 .afh ∧ (1 : Nat) ≠ 4 ∧ (8 : Nat) ≠ 4 ∧
    (∀ p : Fin 8, ∀ r ∈ [Reg.mode, .otype, .speed, .pull, .idata, .odata, .setrst, .afl, .afh],
      0x4002001C ≠ regAddress (wState 0).params p r ∧ 0x40021C28 ≠ regAddress (wState 0).params p r) ∧
    0x40020002 % 4 ≠ 0 ∧
    { wState 0 with inputs := [.busRead 0x4002001C 4] }.inputs = .busRead 0x4002001C 4 :: [] ∧
    { wState 0 with inputs := [.busWrite 0x40021C24 4 1] }.inputs = .busWrite 0x40021C24 4 1 :: [] := by decide

theorem witness_ResetLeavesTheListedValues :
    { wState 3 with inputs := [.rst] }.inputs = .rst :: [] ∧ State.reset.ctxs ≠ [] := by
  refine ⟨by decide, ?_⟩
  intro h
  have := congrArg List.length h
  revert this
  decide

/-- A sound state with a command at its last step: an alternate-function `INIT` of pin 7 of bank B. -/
def wSound : State := tState tBank [tContext 0x25560107 10 0, tIdle]

theorem witness_EveryStepKeepsTheStateSound : stateSound wSound = true ∧ (tNext (step wSound)).isSome = true := by decide

theorem witness_SoundStatesNeverFault : stateSound wSound = true := by decide

/-- A step that drives no enable, and the move that disables the last bank. -/
theorem witness_StepsKeepParametersAndEnables :
    ((tNext (step wSound)).isSome = true ∧ ∀ p e, wSound.inputs.head? ≠ some (.bankEn p e)) ∧
    { wSound with inputs := [.bankEn 7 false] }.inputs = .bankEn 7 false :: [] ∧ (0 : Fin 8) ≠ 7 := by decide

/-- Another context moves while context 1 holds its response. -/
theorem witness_ResponseStaysUntilTheNextIssue :
    (tNext (step wSound)).isSome = true ∧ wSound.ctxs[1]? = some tIdle ∧ tIdle.busy = false ∧
    wSound.inputs.head? = none := by decide

/-- A completion that changes `status`, and an `RD` that changes `rval`. -/
theorem witness_StatusAndSlotHaveOneWriter :
    let s := tState { tBank with mode := 0x400 } [tContext 0xC0000005 1 0]
    ((tNext (step s)).map (fun t => t.ctxs.map (fun k => (k.status, k.rval))) = some [(.success, 0#1)]) ∧
    s.ctxs.map (fun k => (k.status, k.rval)) = [(.null, 1#1)] ∧ s.inputs.head? ≠ some .rst := by decide

theorem witness_LostUpdateRaceHasExactlyTwoEnds :
    let s := tState tBank [tIdle, tIdle]
    s.ctxs = tIdle :: tIdle :: [] ∧ tIdle.busy = false ∧ s.bankEn[0] = true ∧ s.banks[0].odata = 0 ∧
    [0, 1, 0, 1, 0].Perm [0, 0, 0, 1, 1] := by decide

theorem witness_InterleavedInitsLoseAModeUpdate :
    let s := tState tBank [tIdle, tIdle]
    s.ctxs = tIdle :: tIdle :: [] ∧ tIdle.busy = false ∧ s.bankEn[0] = true ∧ s.banks[0].mode = 0 ∧
    s.params.rmwSplit = .one := by decide

theorem witness_StepsOnDifferentBanksCommute :
    let s := tState tBank [tContext 0x80000000 2 0, tContext 0x4800070F 1 0]
    (0 : Nat) ≠ 1 ∧ (0 : Fin 8) ≠ 7 ∧ validate (.tgl 0 0) = .pass 0 0 ∧ validate (.set 7 15 1) = .pass 7 15 ∧
    s.bankEn[(0 : Fin 8)] = true ∧ s.bankEn[(7 : Fin 8)] = true ∧
    (tNext (exec (.tgl 0 0) { s with cur := 0 })).isSome = true ∧
    (tNext (exec (.set 7 15 1) { s with cur := 1 })).isSome = true := by decide
end

