-- ==== Sys2Proof/Proofs/Scope.lean ====
section
/-! The statements of 00_scope.md: the laws of the field primitives, the places of the fields, the default
parameters. -/

namespace Sys2Proof.Machine

/-! ## Reading and updating a field -/

/-- A field read is a value of the field's width. -/
theorem getField_toNat_lt (r : Word) (w s : Nat) (hw : w = 1 ∨ w = 2 ∨ w = 4) : (getField r w s).toNat < 2 ^ w := by
  refine Nat.lt_pow_two_of_testBit _ fun i hi => ?_
  rw [BitVec.testBit_toNat, getLsbD_getField _ _ _ _ hw, decide_eq_false (Nat.not_lt.mpr hi), Bool.false_and]

/-- A field reads back as written (00_scope.md R18). -/
theorem getField_updateField_same (r v : Word) (w s : Nat) (hw : w = 1 ∨ w = 2 ∨ w = 4) (hs : s + w ≤ 32)
    (hv : v.toNat < 2 ^ w) : getField (updateField r w s v) w s = v := by
  refine BitVec.eq_of_getLsbD_eq fun i _ => ?_
  rw [getLsbD_getField _ _ _ _ hw]
  by_cases hi : i < w
  · simp [getLsbD_updateField r v w s (s + i) hw hv (by omega), hi]
  · simp [hi, getLsbD_of_lt_two_pow v w i hv (by omega)]

/-- An update leaves every disjoint field as it was (00_scope.md R18). -/
theorem getField_updateField_of_disjoint (r v : Word) (w s w2 s2 : Nat) (hw : w = 1 ∨ w = 2 ∨ w = 4)
    (hv : v.toNat < 2 ^ w) (hw2 : w2 = 1 ∨ w2 = 2 ∨ w2 = 4) (hs2 : s2 + w2 ≤ 32)
    (hdisj : s2 + w2 ≤ s ∨ s + w ≤ s2) : getField (updateField r w s v) w2 s2 = getField r w2 s2 := by
  refine BitVec.eq_of_getLsbD_eq fun i _ => ?_
  rw [getLsbD_getField _ _ _ _ hw2, getLsbD_getField _ _ _ _ hw2]
  by_cases hi : i < w2
  · have outside : ¬(s ≤ s2 + i ∧ s2 + i < s + w) := by omega
    rw [getLsbD_updateField r v w s (s2 + i) hw hv (by omega), if_neg outside]
  · simp [hi]

/-- The second of two updates of a field overrides the first (00_scope.md R18). -/
theorem updateField_updateField_same (r v1 v2 : Word) (w s : Nat) (hw : w = 1 ∨ w = 2 ∨ w = 4)
    (hv1 : v1.toNat < 2 ^ w) (hv2 : v2.toNat < 2 ^ w) :
    updateField (updateField r w s v1) w s v2 = updateField r w s v2 := by
  refine BitVec.eq_of_getLsbD_eq fun i hi => ?_
  simp only [getLsbD_updateField _ _ _ _ _ hw hv1 hi, getLsbD_updateField _ _ _ _ _ hw hv2 hi]
  by_cases inside : s ≤ i ∧ i < s + w
  · simp only [if_pos inside]
  · simp only [if_neg inside]

/-- Writing back what a field holds changes nothing (00_scope.md R18). -/
theorem updateField_getField_same (r : Word) (w s : Nat) (hw : w = 1 ∨ w = 2 ∨ w = 4) :
    updateField r w s (getField r w s) = r := by
  refine BitVec.eq_of_getLsbD_eq fun i hi => ?_
  rw [getLsbD_updateField _ _ _ _ _ hw (getField_toNat_lt r w s hw) hi, getLsbD_getField _ _ _ _ hw]
  by_cases inside : s ≤ i ∧ i < s + w
  · obtain ⟨hsi, hiw⟩ := inside
    simp [hsi, hiw, Nat.add_sub_cancel' hsi, show i - s < w by omega]
  · rw [if_neg inside]

/-! ## Flipping a bit -/

/-- Flipping a bit twice restores the word (00_scope.md R18). -/
theorem xor_bit_twice (r : Word) (n : Nat) : (r ^^^ (1#32 <<< n)) ^^^ (1#32 <<< n) = r := by
  rw [BitVec.xor_assoc, BitVec.xor_self, BitVec.xor_zero]

/-- Bit `n` of a word, moved to place 0 and masked, is 1 or 0. -/
theorem ushiftRight_and_one (r : Word) (n : Nat) : (r >>> n) &&& 1#32 = if r.getLsbD n then 1#32 else 0#32 := by
  rw [BitVec.and_one_eq_setWidth_ofBool_getLsbD, BitVec.getLsbD_ushiftRight, Nat.add_zero]
  cases r.getLsbD n <;> rfl

/-- Flipping bit `n` complements it. -/
theorem getLsbD_xor_bit_same (r : Word) (n : Nat) (hn : n < 32) : (r ^^^ (1#32 <<< n)).getLsbD n = !r.getLsbD n := by
  simp [hn]

/-- Flipping bit `n` once complements the bit as it is read out (00_scope.md R18). -/
theorem ushiftRight_xor_bit_and_one (r : Word) (n : Nat) (hn : n < 32) :
    ((r ^^^ (1#32 <<< n)) >>> n) &&& 1#32 = 1#32 - ((r >>> n) &&& 1#32) := by
  rw [ushiftRight_and_one, ushiftRight_and_one, getLsbD_xor_bit_same r n hn]
  cases r.getLsbD n <;> rfl

/-- Settles O6: the four laws of a field by comparing bits, the two of a flip by reading the bit. -/
theorem fieldUpdateLaws : Obligations.FieldUpdateLaws := by
  refine ⟨fun r v v1 v2 w s hw hs hv hv1 hv2 => ⟨?_, ?_, ?_, ?_⟩, fun r n hn => ⟨xor_bit_twice r n, ?_⟩⟩
  · exact getField_updateField_same r v w s hw hs hv
  · exact fun w2 s2 hw2 hs2 hdisj => getField_updateField_of_disjoint r v w s w2 s2 hw hv hw2 hs2 hdisj
  · exact updateField_updateField_same r v1 v2 w s hw hv1 hv2
  · exact updateField_getField_same r w s hw
  · exact ushiftRight_xor_bit_and_one r n (by omega)

/-! ## The places of the fields -/

/-- A field of any kind and pin ends at or below bit 31 of its register (00_scope.md R17). -/
theorem locate_shift_add_width_le (f : Field) (n : Fin 16) : (locate f n).shift + (locate f n).width ≤ 32 := by
  cases f <;> simp only [locate] <;> omega

/-- The alternate-function field of pins 0..7 is in `AFL` (10_state.md R42). -/
theorem locate_af_of_lt (n : Fin 16) (hn : n.val < 8) :
    locate .af n = { reg := .afl, width := 4, shift := 4 * n.val } := by
  have hdiv : n.val / 8 = 0 := by omega
  have hshift : n.val % 8 * 4 = 4 * n.val := by omega
  simp only [locate, if_pos hdiv, hshift]

/-- The alternate-function field of pins 8..15 is in `AFH` (10_state.md R42). -/
theorem locate_af_of_ge (n : Fin 16) (hn : 8 ≤ n.val) :
    locate .af n = { reg := .afh, width := 4, shift := 4 * (n.val - 8) } := by
  have hdiv : n.val / 8 ≠ 0 := by omega
  have hshift : n.val % 8 * 4 = 4 * (n.val - 8) := by omega
  simp only [locate, if_neg hdiv, hshift]

/-- Settles O7: the bound by the kind of field, the register by the side of pin 8. -/
theorem fieldPlacesFitTheirRegisters : Obligations.FieldPlacesFitTheirRegisters :=
  ⟨locate_shift_add_width_le, locate_af_of_lt, locate_af_of_ge⟩

/-! ## The default parameters -/

/-- What legal parameters meet, constraint by constraint (00_scope.md R9; 20_memory.md R72). -/
theorem legal_iff (P : Params) :
    P.legal = true ↔
      [P.modeInput, Config.modeOutput, P.modeAF, P.modeAnalog].Nodup ∧
      [Config.pullNone, P.pullUp, P.pullDown].Nodup ∧
      [P.speedLow, P.speedMedium, P.speedHigh, P.speedVeryHigh].Nodup ∧
      P.addresses.Nodup ∧ ∀ a ∈ P.addresses, a % 4 = 0 := by
  simp only [Params.legal, Params.modesDistinct, Params.pullsDistinct, Params.speedsDistinct, Params.addressesDistinct,
    Params.addressesAligned, Bool.and_eq_true, decide_eq_true_eq, List.all_eq_true, beq_iff_eq, and_assoc]

/-- Distinct offsets below `k` on bases at least `k` apart give distinct addresses: no two banks overlap. -/
theorem addresses_nodup_of_spaced (P : Params) (k : Nat) (hbase : P.base.toList.Pairwise fun b c => b + k ≤ c)
    (hoff : P.off.toList.Nodup) (hlt : ∀ o ∈ P.off.toList, o < k) : P.addresses.Nodup := by
  refine List.nodup_flatMap.mpr ⟨fun b _ => hoff.map (add_right_injective b), hbase.imp ?_⟩
  intro b c hbc a hab hac
  obtain ⟨o, ho, rfl⟩ := List.mem_map.mp hab
  obtain ⟨o', -, heq⟩ := List.mem_map.mp hac
  have := hlt o ho
  omega

/-- Bases and offsets that are multiples of 4 give addresses that are. -/
theorem addresses_aligned_of_aligned (P : Params) (hbase : ∀ b ∈ P.base.toList, b % 4 = 0)
    (hoff : ∀ o ∈ P.off.toList, o % 4 = 0) : ∀ a ∈ P.addresses, a % 4 = 0 := by
  intro a ha
  obtain ⟨b, hb, hab⟩ := List.mem_flatMap.mp ha
  obtain ⟨o, ho, rfl⟩ := List.mem_map.mp hab
  have := hbase b hb
  have := hoff o ho
  omega

/-- Settles O41: the codes by their values, the addresses by the banks' spacing of 0x400, the two entries of the map by
evaluation. -/
theorem defaultParametersAreLegal : Obligations.DefaultParametersAreLegal := by
  refine ⟨(legal_iff _).mpr ⟨?modes, ?pulls, ?speeds, ?distinct, ?aligned⟩, rfl, rfl⟩
  case modes => decide
  case pulls => decide
  case speeds => decide
  case distinct => exact addresses_nodup_of_spaced _ 0x400 (by decide) (by decide) (by decide)
  case aligned => exact addresses_aligned_of_aligned _ (by decide) (by decide)

end Sys2Proof.Machine
end

/-! The statements of 10_state.md. First what one move does, said once: of a command (`exec_next`), of another agent
(`takeInput_inputMove`), of the machine (`step_next`), and what becomes of one context in a step (`step_contextMove`).
The statements are read off these. -/

namespace Sys2Proof.Machine

/-! ## Sound contexts -/

theorem contextSound_completed (P : Params) (k : Context) (st : Status) : contextSound P (completed k st) = true := rfl

theorem contextSound_idleContext (P : Params) (l : Latches) : contextSound P (idleContext l) = true := rfl

theorem contextSound_issued (P : Params) (k : Context) (w : Word) : contextSound P (issued k w) = true := by
  simp [contextSound, stepCount_pos]

/-- A transaction does not touch what soundness is about. -/
theorem contextSound_txnContext (P : Params) (s : State) (k : Context) (p : Fin 8) (x : Txn) :
    contextSound P (txnContext s k p x) = contextSound P k := by
  simp [contextSound]

/-- A sound context may go on to its next step when there is one. -/
theorem contextSound_advanced (P : Params) (k : Context) (hs : contextSound P k = true)
    (hleft : k.ustep.toNat + 1 < stepCount P (decodeWord k.cmd)) : contextSound P (advanced k) = true := by
  have hindex : (k.ustep + 1).toNat < stepCount P (decodeWord k.cmd) := by
    rw [BitVec.toNat_add]
    exact (Nat.mod_le _ _).trans_lt hleft
  simp only [contextSound, Bool.or_eq_true, Bool.and_eq_true] at hs ⊢
  exact hs.imp_right fun ⟨hresp, _⟩ => ⟨hresp, decide_eq_true hindex⟩

/-! ## A move of a command -/

/-- What a step of command `i` by context `k` can do: `CommandMove i s k u k'` says that the transaction takes `s` to
`u` and that the context becomes `k'` (10_state.md R57; 60_exceptions.md R173). -/
inductive CommandMove (i : Instr) (s : State) (k : Context) : State → Context → Prop where
  /-- Validation fails, and the command completes with its status. -/
  | rejected (st : Status) (hv : validate i = .reject st) (hu : k.ustep.toNat = 0) :
      CommandMove i s k s (completed k st)
  /-- Validation passes, and the command goes on to its first transaction. -/
  | validated (p : Fin 8) (n : Fin 16) (hv : validate i = .pass p n) (hu : k.ustep.toNat = 0) :
      CommandMove i s k s (advanced k)
  /-- The last transaction completes the command. -/
  | finished (p : Fin 8) (n : Fin 16) (j : Nat) (x : Txn) (hv : validate i = .pass p n)
      (hu : k.ustep.toNat = j + 1) (hx : (scriptOf s.params n i)[j]? = some x)
      (hl : j + 1 = (scriptOf s.params n i).length) :
      CommandMove i s k (txnState s k p x) (completed (txnContext s k p x) .success)
  /-- Any other transaction takes the command to the next. -/
  | continued (p : Fin 8) (n : Fin 16) (j : Nat) (x : Txn) (hv : validate i = .pass p n)
      (hu : k.ustep.toNat = j + 1) (hx : (scriptOf s.params n i)[j]? = some x)
      (hl : j + 1 ≠ (scriptOf s.params n i).length) :
      CommandMove i s k (txnState s k p x) (advanced (txnContext s k p x))

/-- A step of a command that answers a next state is a move of the executing context, which alone is replaced. -/
theorem exec_next (i : Instr) (s t : State) (h : exec i s = .next t) :
    ∃ k u k', s.ctxs[s.cur]? = some k ∧ CommandMove i s k u k' ∧ t = setContext u s.cur k' := by
  rw [exec_eq_commandStep] at h
  obtain ⟨k, hk, ⟨st, hv, hu, rfl⟩ | ⟨p, n, hv, hu, rfl⟩ | ⟨p, n, j, x, hv, hu, hx, hl, rfl⟩ |
    ⟨p, n, j, x, hv, hu, hx, hl, rfl⟩⟩ := commandStep_next _ _ _ _ h
  · exact ⟨k, _, _, hk, .rejected st hv hu, rfl⟩
  · exact ⟨k, _, _, hk, .validated p n hv hu, rfl⟩
  · exact ⟨k, _, _, hk, .finished p n j x hv hu hx hl, rfl⟩
  · exact ⟨k, _, _, hk, .continued p n j x hv hu hx hl, rfl⟩

namespace CommandMove

variable {i : Instr} {s u : State} {k k' : Context}

theorem params_eq (h : CommandMove i s k u k') : u.params = s.params := by cases h <;> simp
theorem ctxs_eq (h : CommandMove i s k u k') : u.ctxs = s.ctxs := by cases h <;> simp
theorem bankEn_eq (h : CommandMove i s k u k') : u.bankEn = s.bankEn := by cases h <;> simp
theorem inputs_eq (h : CommandMove i s k u k') : u.inputs = s.inputs := by cases h <;> simp
theorem cur_eq (h : CommandMove i s k u k') : u.cur = s.cur := by cases h <;> simp
theorem dpValue_eq (h : CommandMove i s k u k') : u.dpValue = s.dpValue := by cases h <;> simp
theorem cmd_eq (h : CommandMove i s k u k') : k'.cmd = k.cmd := by cases h <;> simp

/-- The only bank a command reaches is the one validation passes (20_memory.md R89). -/
theorem bank_eq (h : CommandMove i s k u k') (q : Fin 8) (hq : ∀ n, validate i ≠ .pass q n) :
    u.banks[q.val] = s.banks[q.val] := by
  have other (p : Fin 8) (n : Fin 16) (hv : validate i = .pass p n) : q ≠ p := fun e => hq n (e ▸ hv)
  cases h with
  | rejected => rfl
  | validated => rfl
  | finished p n j x hv => exact txnState_bank_other s k p q x (other p n hv)
  | continued p n j x hv => exact txnState_bank_other s k p q x (other p n hv)

/-- `status` is written by the completion of the command only (10_state.md R58). -/
theorem status_eq_or_completes (h : CommandMove i s k u k') : k'.status = k.status ∨ k'.busy = false := by
  cases h with
  | rejected => exact .inr rfl
  | validated => exact .inl rfl
  | finished => exact .inr rfl
  | continued => exact .inl (txnContext_status ..)

/-- A sound context stays sound: the step index goes up only while a step is left (10_state.md R55, R57). -/
theorem contextSound_of_contextSound (h : CommandMove i s k u k') (hi : i = decodeWord k.cmd)
    (hs : contextSound s.params k = true) : contextSound s.params k' = true := by
  subst hi
  cases h with
  | rejected => exact contextSound_completed ..
  | validated p n hv hu =>
    have left : 0 < (scriptOf s.params n (decodeWord k.cmd)).length :=
      scriptOf_pos _ _ _ fun hnull => by rw [hnull] at hv; cases hv
    refine contextSound_advanced _ _ hs ?_
    rw [stepCount_pass _ _ p n hv]
    omega
  | finished => exact contextSound_completed ..
  | continued p n j x hv hu hx hl =>
    have left : j < (scriptOf s.params n (decodeWord k.cmd)).length := (List.getElem?_eq_some_iff.mp hx).1
    refine contextSound_advanced _ _ ((contextSound_txnContext ..).trans hs) ?_
    rw [txnContext_cmd, txnContext_ustep, stepCount_pass _ _ p n hv]
    omega

end CommandMove

/-- No field update takes a level (40_configuration.md R132, R133). -/
theorem loadLevel_notMem_fieldUpdate (split : RmwSplit) (l : Loc) (v : Word) (m : Nat) :
    Txn.loadLevel m ∉ fieldUpdate split l v := by
  cases split <;> simp [fieldUpdate]

/-- Only an `RD` takes a level, and it does so in its one transaction (41_pin_io.md R159). -/
theorem eq_rd_of_loadLevel_mem (P : Params) (n : Fin 16) (m : Nat) (i : Instr)
    (h : Txn.loadLevel m ∈ scriptOf P n i) : ∃ port pin, i = .rd port pin := by
  cases i with
  | init _ _ mode _ _ _ _ =>
    simp only [scriptOf, initScript, List.mem_append, loadLevel_notMem_fieldUpdate, false_or] at h
    split at h
    · simp only [List.mem_append, loadLevel_notMem_fieldUpdate, false_or] at h
      split at h
      · exact absurd h (loadLevel_notMem_fieldUpdate _ _ _ _)
      · cases h
    · cases h
  | initNull => simp [scriptOf] at h
  | set _ _ level => simp [scriptOf, setScript] at h
  | tgl _ _ => simp [scriptOf, tglScript] at h
  | rd port pin => exact ⟨port, pin, rfl⟩

/-- `rval` is written by an `RD` that completes with `ST_SUCCESS` only (10_state.md R58; 41_pin_io.md R160). -/
theorem CommandMove.rval_eq_or_rd_succeeds {i : Instr} {s u : State} {k k' : Context} (h : CommandMove i s k u k') :
    k'.rval = k.rval ∨ ((∃ port pin, i = .rd port pin) ∧ k'.busy = false ∧ k'.status = .success) := by
  cases h with
  | rejected => exact .inl rfl
  | validated => exact .inl rfl
  | finished p n j x hv hu hx hl =>
    by_cases hlevel : ∃ m, x = .loadLevel m
    · obtain ⟨m, rfl⟩ := hlevel
      exact .inr ⟨eq_rd_of_loadLevel_mem _ _ _ _ (List.mem_of_getElem? hx), rfl, rfl⟩
    · exact .inl (txnContext_rval s k p x fun m e => hlevel ⟨m, e⟩)
  | continued p n j x hv hu hx hl =>
    refine .inl (txnContext_rval s k p x fun m e => ?_)
    subst e
    obtain ⟨port, pin, rfl⟩ := eq_rd_of_loadLevel_mem _ _ _ _ (List.mem_of_getElem? hx)
    have inside : j < (rdScript n).length := (List.getElem?_eq_some_iff.mp hx).1
    simp only [scriptOf, rdScript, List.length_singleton] at inside hl
    omega

/-- Settles O32: a step of a command is one move, and replaces the executing context only. -/
theorem commandStepFrame : Obligations.CommandStepFrame := by
  intro i s t h
  obtain ⟨k, u, k', hk, move, rfl⟩ := exec_next i s t h
  refine ⟨move.params_eq, move.bankEn_eq, move.inputs_eq, move.cur_eq, move.dpValue_eq, ?length, ?others, ?own, ?banks⟩
  case length => simp [move.ctxs_eq]
  case others => exact fun c hc => by simp [move.ctxs_eq, List.getElem?_set_ne (Ne.symm hc)]
  case own =>
    intro k₀ k₁ hk₀ hk₁
    have hlt := (List.getElem?_eq_some_iff.mp hk).1
    obtain rfl : k = k₀ := Option.some.inj (hk.symm.trans hk₀)
    obtain rfl : k' = k₁ := by simpa [move.ctxs_eq, List.getElem?_set_self hlt] using hk₁
    exact move.cmd_eq
  case banks => exact fun q hq => move.bank_eq q hq

/-! ## A move of another agent -/

/-- What a prescribed move that is no command's can do when it answers a next state. -/
inductive InputMove (s : State) : Input → State → Prop where
  /-- An issue on an idle context (10_state.md R56). -/
  | issue (c : Nat) (w : Word) (k : Context) (hk : s.ctxs[c]? = some k) (hb : k.busy = false) :
      InputMove s (.issue c w) (setContext s c (issued k w))
  /-- A read by the direct port or on the platform's bus (10_state.md R63; 20_memory.md R72). -/
  | read (x : Input) (p : Fin 8) (r : Reg) : InputMove s x (portRead s p r)
  /-- A write by the direct port or on the platform's bus (10_state.md R63; 20_memory.md R72). -/
  | write (x : Input) (p : Fin 8) (r : Reg) (v : Word) : InputMove s x (regWrite s p r v)
  /-- The platform drives `BANK_EN[p]` (10_state.md R52). -/
  | bankEn (p : Fin 8) (e : Bool) : InputMove s (.bankEn p e) { s with bankEn := s.bankEn.set p e }
  /-- The platform asserts `rst` (70_reset_and_hazards.md R190). -/
  | rst : InputMove s .rst (resetBlock s)

/-- Every prescribed move that is no command's and answers a next state is one of these. -/
theorem takeInput_inputMove (s t : State) (x : Input) (h : takeInput s x = .done (.next t)) : InputMove s x t := by
  obtain ⟨c, w, rfl, hnext⟩ | ⟨p, r, rfl, hnext⟩ | ⟨p, r, v, rfl, hnext⟩ | ⟨a, n, rfl, hnext⟩ |
    ⟨a, n, v, rfl, hnext⟩ | ⟨p, e, rfl, rfl⟩ | ⟨rfl, rfl⟩ := takeInput_done_next s t x h
  · obtain ⟨k, hk, hb, rfl⟩ := issueCommand_next _ _ _ _ hnext
    exact .issue c w k hk hb
  · obtain ⟨b, y, -, -, rfl⟩ := directRead_next _ _ _ _ hnext
    exact .read _ b y
  · obtain ⟨b, y, -, -, rfl⟩ := directWrite_next _ _ _ _ _ hnext
    exact .write _ b y v
  · obtain ⟨l, -, -, rfl⟩ := platformRead_next _ _ _ _ hnext
    exact .read _ l.1 l.2
  · obtain ⟨l, -, -, rfl⟩ := platformWrite_next _ _ _ _ _ hnext
    exact .write _ l.1 l.2 v
  · exact .bankEn p e
  · exact .rst

namespace InputMove

variable {s t : State} {x : Input}

theorem params_eq (h : InputMove s x t) : t.params = s.params := by cases h <;> simp
theorem ctxs_length_eq (h : InputMove s x t) : t.ctxs.length = s.ctxs.length := by cases h <;> simp

/-- `BANK_EN` is the platform's to drive (10_state.md R52). -/
theorem bankEn_eq (h : InputMove s x t) (hx : ∀ p e, x ≠ .bankEn p e) : t.bankEn = s.bankEn := by
  cases h with
  | issue => rfl
  | read => simp
  | write => simp
  | bankEn p e => exact absurd rfl (hx p e)
  | rst => rfl

end InputMove

/-! ## A step of the machine -/

/-- The step of a context's command is the step of that command at the state chosen for it. -/
theorem step_of_command (s u : State) (i : Instr) (h : nextMove s = .command i u) : step s = exec i u := by
  simp [step, h]

/-- The step of a move that is no command's is its outcome. -/
theorem step_of_done (s : State) (o : Host.Outcome State Fault Refusal) (h : nextMove s = .done o) : step s = o := by
  simp [step, h]

/-- With nothing prescribed and no context busy the run is over (70_reset_and_hazards.md R213). -/
theorem step_of_no_busyContext (s : State) (hin : s.inputs = []) (hb : busyContexts s = []) : step s = .next s :=
  step_of_done s _ (by simp [nextMove, hin, hb])

/-- With nothing prescribed the only busy context moves. -/
theorem step_of_single_busyContext (s : State) (c : Nat) (k : Context) (hin : s.inputs = [])
    (hone : busyContexts s = [c]) (hk : s.ctxs[c]? = some k) (hb : k.busy = true) :
    step s = exec (decodeWord k.cmd) { s with cur := c } :=
  step_of_command s _ _ (by simpa [nextMove, hin, hone] using runContext_busy s c k hk hb)

/-- A prescribed step of a busy context is a step of the command it latched (10_state.md R55). -/
theorem step_of_run_input (s : State) (c : Nat) (k : Context) (rest : List Input) (hin : s.inputs = .run c :: rest)
    (hk : s.ctxs[c]? = some k) (hb : k.busy = true) :
    step s = exec (decodeWord k.cmd) { s with inputs := rest, cur := c } :=
  step_of_command s _ _ (by simpa [nextMove, hin, takeInput] using runContext_busy { s with inputs := rest } c k hk hb)

/-- A step that answers a next state is a step of a busy context's command, an idle step, or a prescribed move of
another agent. -/
theorem step_next (s t : State) (h : step s = .next t) :
    (∃ u k, s.ctxs[u.cur]? = some k ∧ k.busy = true ∧ u.ctxs = s.ctxs ∧ u.params = s.params ∧ u.bankEn = s.bankEn ∧
      exec (decodeWord k.cmd) u = .next t) ∨
    t = s ∨
    (∃ x rest, s.inputs = x :: rest ∧ InputMove { s with inputs := rest } x t) := by
  cases hm : nextMove s with
  | command i u =>
    obtain ⟨k, hk, hb, rfl, hctxs, -, hparams, hen, -, -⟩ := nextMove_command s u i hm
    exact .inl ⟨u, k, hk, hb, hctxs, hparams, hen, step_of_command s u _ hm ▸ h⟩
  | done o =>
    obtain rfl : o = .next t := step_of_done s o hm ▸ h
    obtain ⟨-, -, rfl⟩ | ⟨x, rest, hin, hx⟩ := nextMove_done_next s t hm
    · exact .inr (.inl rfl)
    · exact .inr (.inr ⟨x, rest, hin, takeInput_inputMove _ _ _ hx⟩)

/-- No step changes the parameters (10_state.md R62). -/
theorem step_params_eq (s t : State) (h : step s = .next t) : t.params = s.params := by
  obtain ⟨u, k, -, -, -, hparams, -, hexec⟩ | rfl | ⟨x, rest, -, move⟩ := step_next s t h
  · obtain ⟨hkept, -⟩ := commandStepFrame _ _ _ hexec
    exact hkept.trans hparams
  · rfl
  · exact move.params_eq

/-- No step changes the number of contexts. -/
theorem step_ctxs_length_eq (s t : State) (h : step s = .next t) : t.ctxs.length = s.ctxs.length := by
  obtain ⟨u, k, -, -, hctxs, -, -, hexec⟩ | rfl | ⟨x, rest, -, move⟩ := step_next s t h
  · obtain ⟨-, -, -, -, -, hlength, -⟩ := commandStepFrame _ _ _ hexec
    exact hlength.trans (congrArg List.length hctxs)
  · rfl
  · exact move.ctxs_length_eq

/-- No step but the platform's driving it changes `BANK_EN` (10_state.md R52). -/
theorem step_bankEn_eq (s t : State) (h : step s = .next t) (hin : ∀ p e, s.inputs.head? ≠ some (.bankEn p e)) :
    t.bankEn = s.bankEn := by
  obtain ⟨u, k, -, -, -, -, hen, hexec⟩ | rfl | ⟨x, rest, hx, move⟩ := step_next s t h
  · obtain ⟨-, hkept, -⟩ := commandStepFrame _ _ _ hexec
    exact hkept.trans hen
  · rfl
  · exact move.bankEn_eq fun p e he => hin p e (by simp [hx, he])

/-! ## A context in a step -/

/-- What can become of context `c`, holding `k`, in a step of the machine from `s`. -/
inductive ContextMove (s : State) (c : Nat) (k : Context) : Context → Prop where
  /-- Nothing: another agent moved. -/
  | kept : ContextMove s c k k
  /-- A command was issued on it while it was idle (10_state.md R56). -/
  | issue (w : Word) (hin : s.inputs.head? = some (.issue c w)) (hb : k.busy = false) : ContextMove s c k (issued k w)
  /-- It was reset (70_reset_and_hazards.md R190, R192). -/
  | reset (l : Latches) (hin : s.inputs.head? = some .rst) : ContextMove s c k (idleContext l)
  /-- Its command in flight performed a step. -/
  | ran (u v : State) (k' : Context) (hb : k.busy = true) (hparams : u.params = s.params)
      (move : CommandMove (decodeWord k.cmd) u k v k') : ContextMove s c k k'

/-- Replacing one context leaves every other as it is. -/
theorem getElem?_set_self_or_other {α : Type} (l : List α) (c d : Nat) (k a : α) (hk : l[c]? = some k) :
    (c = d ∧ (l.set d a)[c]? = some a) ∨ (c ≠ d ∧ (l.set d a)[c]? = some k) := by
  by_cases hcd : c = d
  · subst hcd
    exact .inl ⟨rfl, List.getElem?_set_self (List.getElem?_eq_some_iff.mp hk).1⟩
  · exact .inr ⟨hcd, (List.getElem?_set_ne (Ne.symm hcd)).trans hk⟩

/-- A context after a move of another agent. -/
theorem InputMove.contextMove {s t : State} {x : Input} {rest : List Input}
    (h : InputMove { s with inputs := rest } x t) (hin : s.inputs = x :: rest) (c : Nat) (k : Context)
    (hk : s.ctxs[c]? = some k) : ∃ k', t.ctxs[c]? = some k' ∧ ContextMove s c k k' := by
  cases h with
  | issue d w kd hkd hb =>
    obtain ⟨rfl, hset⟩ | ⟨-, hset⟩ := getElem?_set_self_or_other s.ctxs c d k (issued kd w) hk
    · obtain rfl : k = kd := Option.some.inj (hk.symm.trans hkd)
      exact ⟨_, hset, .issue w (by simp [hin]) hb⟩
    · exact ⟨_, hset, .kept⟩
  | read p r => exact ⟨k, by simpa using hk, .kept⟩
  | write p r v => exact ⟨k, by simpa using hk, .kept⟩
  | bankEn p e => exact ⟨k, hk, .kept⟩
  | rst =>
    have hlt : c < (idleContexts s.draws s.ctxs.length).length := by
      simpa using (List.getElem?_eq_some_iff.mp hk).1
    obtain ⟨l, hl⟩ := mem_idleContexts _ _ _ (List.getElem_mem hlt)
    exact ⟨idleContext l, by simp [List.getElem?_eq_getElem hlt, hl], .reset l (by simp [hin])⟩

/-- Every context is still there after a step, and one of the four things has become of it. -/
theorem step_contextMove (s t : State) (c : Nat) (k : Context) (h : step s = .next t) (hk : s.ctxs[c]? = some k) :
    ∃ k', t.ctxs[c]? = some k' ∧ ContextMove s c k k' := by
  obtain ⟨u, ku, hku, hb, hctxs, hparams, -, hexec⟩ | rfl | ⟨x, rest, hin, move⟩ := step_next s t h
  · obtain ⟨k₀, v, k₁, hk₀, move, rfl⟩ := exec_next _ u t hexec
    obtain rfl : ku = k₀ := by rw [hctxs, hku] at hk₀; exact Option.some.inj hk₀
    rw [setContext_ctxs, move.ctxs_eq, hctxs]
    obtain ⟨rfl, hset⟩ | ⟨-, hset⟩ := getElem?_set_self_or_other s.ctxs c u.cur k k₁ hk
    · obtain rfl : k = ku := Option.some.inj (hk.symm.trans hku)
      exact ⟨k₁, hset, .ran u v k₁ hb hparams move⟩
    · exact ⟨k, hset, .kept⟩
  · exact ⟨k, hk, .kept⟩
  · exact move.contextMove hin c k hk

/-! ## Soundness -/

/-- Whatever becomes of a sound context, it is sound. -/
theorem ContextMove.contextSound_of_contextSound {s : State} {c : Nat} {k k' : Context} (h : ContextMove s c k k')
    (hs : contextSound s.params k = true) : contextSound s.params k' = true := by
  cases h with
  | kept => exact hs
  | issue w => exact contextSound_issued _ k w
  | reset l => exact contextSound_idleContext _ l
  | ran u v _ _ hparams move =>
    rw [← hparams] at hs ⊢
    exact move.contextSound_of_contextSound rfl hs

/-- Settles O44: context by context, by what can become of one in a step. -/
theorem everyStepKeepsTheStateSound : Obligations.EveryStepKeepsTheStateSound := by
  intro s t hs h
  obtain ⟨hpos, hsound⟩ := (stateSound_iff s).mp hs
  have hlength := step_ctxs_length_eq s t h
  refine (stateSound_iff t).mpr ⟨hlength ▸ hpos, fun c k' hk' => ?_⟩
  have hc : c < s.ctxs.length := hlength ▸ (List.getElem?_eq_some_iff.mp hk').1
  have hk := List.getElem?_eq_getElem hc
  obtain ⟨k₁, hk₁, move⟩ := step_contextMove s t c _ h hk
  obtain rfl : k' = k₁ := Option.some.inj (hk'.symm.trans hk₁)
  rw [step_params_eq s t h]
  exact move.contextSound_of_contextSound (hsound c _ hk)

/-- Settles O43: the contexts after reset are idle. -/
theorem resetStateIsSound : Obligations.ResetStateIsSound := by
  refine (stateSound_iff _).mpr ⟨?pos, fun c k hk => ?sound⟩
  case pos => simp [State.reset, Config.nctx]
  case sound =>
    obtain ⟨l, rfl⟩ := mem_idleContexts _ _ _ (List.mem_of_getElem? hk)
    exact contextSound_idleContext _ l

/-! ## What a step leaves alone -/

/-- Settles O46: the frames of the three kinds of step; driving `BANK_EN[p]` by the outcome of that move. -/
theorem stepsKeepParametersAndEnables : Obligations.StepsKeepParametersAndEnables := by
  refine ⟨fun s t h => ⟨step_params_eq s t h, step_ctxs_length_eq s t h, step_bankEn_eq s t h⟩, ?_⟩
  intro s p e rest hin
  refine ⟨_, step_of_input_done s _ rest _ hin rfl, ?driven, fun q hq => ?others, rfl, rfl, rfl⟩
  case driven => simp
  case others =>
    have hne : p.val ≠ q.val := fun hpq => hq (Fin.ext hpq.symm)
    simp [hne]

/-- Settles O47: of the four things that can become of a context, only a step of its command writes `status` or `rval`
when no reset is asserted. -/
theorem statusAndSlotHaveOneWriter : Obligations.StatusAndSlotHaveOneWriter := by
  intro s t c k k' h hrst hk hk'
  obtain ⟨k₁, hk₁, move⟩ := step_contextMove s t c k h hk
  obtain rfl : k' = k₁ := Option.some.inj (hk'.symm.trans hk₁)
  cases move with
  | kept => exact ⟨fun hne => absurd rfl hne, fun hne => absurd rfl hne⟩
  | issue w => exact ⟨fun hne => absurd rfl hne, fun hne => absurd rfl hne⟩
  | reset l hin => exact absurd hin hrst
  | ran u v _ hb _ move =>
    refine ⟨fun hne => ⟨hb, move.status_eq_or_completes.resolve_left hne⟩, fun hne => ?_⟩
    obtain ⟨hrd, hdone, hstatus⟩ := move.rval_eq_or_rd_succeeds.resolve_left hne
    exact ⟨hrd, hb, hdone, hstatus⟩

/-- Settles O48: without a reset or an issue on it, an idle context is left as it is. -/
theorem responseStaysUntilTheNextIssue : Obligations.ResponseStaysUntilTheNextIssue := by
  intro s t c k h hk hidle hrst hissue
  obtain ⟨k', hk', move⟩ := step_contextMove s t c k h hk
  cases move with
  | kept => exact ⟨k, hk', rfl, rfl⟩
  | issue w hin => exact absurd hin (hissue w)
  | reset l hin => exact absurd hin hrst
  | ran u v _ hb => simp [hidle] at hb

/-! ## Who moves -/

/-- The busy contexts are exactly `c` when `c` is busy and every other context is idle. -/
theorem busyContexts_eq_singleton (s : State) (c : Nat) (k : Context) (hk : s.ctxs[c]? = some k) (hb : k.busy = true)
    (hidle : ∀ d kd, d ≠ c → s.ctxs[d]? = some kd → kd.busy = false) : busyContexts s = [c] := by
  have hnodup : (busyContexts s).Nodup := List.nodup_range.filter _
  refine List.perm_singleton.mp ((List.perm_ext_iff_of_nodup hnodup (List.nodup_singleton c)).mpr fun d => ?_)
  rw [mem_busyContexts, List.mem_singleton]
  constructor
  · rintro ⟨kd, hkd, hbd⟩
    by_contra hdc
    simp [hidle d kd hdc hkd] at hbd
  · rintro rfl
    exact ⟨k, hk, hb⟩

/-- No context is listed as busy when every context is idle. -/
theorem busyContexts_eq_nil (s : State) (hidle : ∀ (c : Nat) (k : Context), s.ctxs[c]? = some k → k.busy = false) :
    busyContexts s = [] := by
  refine List.eq_nil_iff_forall_not_mem.mpr fun c hc => ?_
  obtain ⟨k, hk, hb⟩ := (mem_busyContexts s c).mp hc
  simp [hidle c k hk] at hb

/-- With nothing prescribed and some context busy, the next move is a step of a busy context's command; the choice
changes nothing but the number of draws. -/
theorem nextMove_of_busyContext (s : State) (hin : s.inputs = []) (hne : busyContexts s ≠ []) :
    ∃ c k d, s.ctxs[c]? = some k ∧ k.busy = true ∧
      nextMove s = .command (decodeWord k.cmd) { s with cur := c, draws := d } := by
  match hlist : busyContexts s with
  | [] => exact absurd hlist hne
  | [c] =>
    obtain ⟨k, hk, hb⟩ := (mem_busyContexts s c).mp (by simp [hlist])
    exact ⟨c, k, s.draws, hk, hb, by simpa [nextMove, hin, hlist] using runContext_busy s c k hk hb⟩
  | c :: d :: rest =>
    have hlt : Config.pick s.draws % (rest.length + 2) < (c :: d :: rest).length := Nat.mod_lt _ (by omega)
    have hmem := List.getElem_mem hlt
    rw [← List.getD_eq_getElem (d := c) _ hlt] at hmem
    obtain ⟨k, hk, hb⟩ := (mem_busyContexts s _).mp (by rw [hlist]; exact hmem)
    refine ⟨_, k, s.draws + 1, hk, hb, ?_⟩
    simpa [nextMove, hin, hlist] using runContext_busy { s with draws := s.draws + 1 } _ k hk hb

/-- Settles O38: by the list of busy contexts, empty or not. -/
theorem silentEnvironmentLetsABusyContextMove : Obligations.SilentEnvironmentLetsABusyContextMove := by
  refine fun s hin => ⟨fun hidle => step_of_no_busyContext s hin (busyContexts_eq_nil s hidle), ?_⟩
  rintro ⟨c₀, k₀, hk₀, hb₀⟩
  have hne : busyContexts s ≠ [] := List.ne_nil_of_mem ((mem_busyContexts s c₀).mpr ⟨k₀, hk₀, hb₀⟩)
  obtain ⟨c, k, d, hk, hb, hmove⟩ := nextMove_of_busyContext s hin hne
  exact ⟨c, k, d, hk, hb, step_of_command s _ _ hmove⟩

/-- Settles O35: a prescribed step, and the step of the only busy context. -/
theorem stepRunsTheLatchedCommand : Obligations.StepRunsTheLatchedCommand := by
  refine fun s c k hk hb => ⟨fun rest hin => step_of_run_input s c k rest hin hk hb, fun hin hidle => ?_⟩
  exact step_of_single_busyContext s c k hin (busyContexts_eq_singleton s c k hk hb hidle) hk hb

/-- Settles O36: the presented command is latched by context 0, whose step is prescribed next. -/
theorem presentedCommandRunsNext : Obligations.PresentedCommandRunsNext := by
  intro s k rest w hctxs
  have hword : s.withFetchWord 32 w.toNat = presentCommand s w := by
    simp [State.withFetchWord, Nat.mod_eq_of_lt w.isLt]
  have hpresented : (presentCommand s w).ctxs = issued k w :: rest := by simp [hctxs]
  rw [hword, step_of_run_input _ 0 (issued k w) s.inputs rfl (by rw [hpresented]; rfl) rfl, hpresented]
  rfl

/-- Settles O37: the move's outcome on an idle and on a busy context. -/
theorem issueLatchesTheWord : Obligations.IssueLatchesTheWord := by
  intro s c k w rest hk hin
  have hstep : step s = issueCommand { s with inputs := rest } c w := step_of_input_done s _ rest _ hin rfl
  exact ⟨fun hidle => by simp [hstep, issueCommand, hk, hidle, setContext, issued],
    fun hbusy => by simp [hstep, issueCommand, hk, hbusy]⟩

/-! ## The direct port -/

/-- A direct-port read on valid selectors is one `RegRead` (10_state.md R63). -/
theorem directRead_valid (s : State) (p : Fin 8) (r : Reg) : directRead s p.val (regId r) = .next (portRead s p r) := by
  simp [directRead]

/-- A direct-port write on valid selectors is one `RegWrite` (10_state.md R63). -/
theorem directWrite_valid (s : State) (p : Fin 8) (r : Reg) (v : Word) :
    directWrite s p.val (regId r) v = .next (regWrite s p r v) := by
  simp [directWrite]

/-- A direct-port read on an invalid selector is refused (20_memory.md R85). -/
theorem directRead_invalid (s : State) (a b : Nat) (h : 8 ≤ a ∨ 9 ≤ b) :
    directRead s a b = .refused .noSuchRegister := by
  obtain ha | hb := h
  · simp [directRead, bankOfId_eq_none a ha]
  · simp [directRead, regOfId_eq_none b hb]

/-- A direct-port write on an invalid selector is refused (20_memory.md R85). -/
theorem directWrite_invalid (s : State) (a b : Nat) (v : Word) (h : 8 ≤ a ∨ 9 ≤ b) :
    directWrite s a b v = .refused .noSuchRegister := by
  obtain ha | hb := h
  · simp [directWrite, bankOfId_eq_none a ha]
  · simp [directWrite, regOfId_eq_none b hb]

/-- Settles O39: the step is the port's transaction; then by whether the selectors are valid. -/
theorem directPortTransactions : Obligations.DirectPortTransactions := by
  intro s rest a b v
  have hread (hin : s.inputs = .dpRead a b :: rest) : step s = directRead { s with inputs := rest } a b :=
    step_of_input_done s _ rest _ hin rfl
  have hwrite (hin : s.inputs = .dpWrite a b v :: rest) : step s = directWrite { s with inputs := rest } a b v :=
    step_of_input_done s _ rest _ hin rfl
  refine ⟨?valid, fun hinvalid => ⟨fun hin => ?_, fun hin => ?_⟩⟩
  case valid =>
    rintro p r rfl rfl
    exact ⟨fun hin => (hread hin).trans (directRead_valid _ p r),
      fun hin => (hwrite hin).trans (directWrite_valid _ p r v)⟩
  · exact (hread hin).trans (directRead_invalid _ a b hinvalid)
  · exact (hwrite hin).trans (directWrite_invalid _ a b v hinvalid)

/-! ## The pad -/

/-- A pin's mode field is Output exactly when its low bit is set and its high bit clear (30_encoding.md R108). -/
theorem getField_eq_modeOutput_iff (r : Word) (sh : Nat) :
    getField r 2 sh = Config.modeOutput.setWidth 32 ↔ r.getLsbD sh = true ∧ r.getLsbD (sh + 1) = false := by
  have hbit (i : Nat) : (getField r 2 sh).getLsbD i = (decide (i < 2) && r.getLsbD (sh + i)) :=
    getLsbD_getField r 2 sh i (by simp)
  constructor
  · intro h
    rw [h] at hbit
    exact ⟨(hbit 0).symm, (hbit 1).symm⟩
  · rintro ⟨hlow, hhigh⟩
    refine BitVec.eq_of_getLsbD_eq fun i _ => (hbit i).trans ?_
    match i with
    | 0 => simpa [Config.modeOutput] using hlow
    | 1 => simpa [Config.modeOutput] using hhigh
    | i + 2 => simp [Config.modeOutput]

/-- The pad level of a pin of an enabled bank (10_state.md R50). -/
theorem padLevel_enabled (s : State) (p : Fin 8) (n : Nat) (h : s.bankEn[p] = true) :
    padLevel s p n =
      if s.banks[p].mode.getLsbD (2 * n) = true ∧ s.banks[p].mode.getLsbD (2 * n + 1) = false ∧
          s.banks[p].otype.getLsbD n = false
      then s.banks[p].odata.getLsbD n else Config.env s.draws p n := by
  simp only [padLevel, h, getField_eq_modeOutput_iff, true_and, and_assoc]

/-- A read of `IDATA` of an enabled bank returns the pad word (20_memory.md R80). -/
theorem regRead_idata_enabled (s : State) (p : Fin 8) (h : s.bankEn[p] = true) : regRead s p .idata = padWord s p :=
  if_pos h

/-- Settles O10: the bits of the pad word, and the one draw of a read. -/
theorem idataShowsThePadLevels : Obligations.IdataShowsThePadLevels := by
  intro s p h
  rw [regRead_idata_enabled s p h]
  refine ⟨fun n hn => ?_, fun n hn => ?_, if_pos (.inl rfl)⟩
  · rw [padWord_getLsbD, decide_eq_true hn, Bool.true_and, padLevel_enabled s p n h]
  · rw [padWord_getLsbD, decide_eq_false (Nat.not_lt.mpr hn), Bool.false_and]

end Sys2Proof.Machine

/-! The statements of 20_memory.md. First the rules of the two bus transactions: what a read returns, what a write makes
of its bank, and which bits each store sets; then the transactions a command's list can hold, and the two directions
between a step of a command and its move. The statements are read off these. -/

namespace Sys2Proof.Machine

/-! ## Reads and writes of a bank -/

/-- A read of an enabled bank returns the register's value (20_memory.md R77 to R80, R84). -/
theorem regRead_enabled (s : State) (p : Fin 8) (r : Reg) (h : s.bankEn[p] = true) : regRead s p r = regValue s p r :=
  if_pos h

/-- A read of a disabled bank returns the free word of the draw (20_memory.md R87). -/
theorem regRead_disabled (s : State) (p : Fin 8) (r : Reg) (h : s.bankEn[p] = false) :
    regRead s p r = Config.disabledRead s.draws := by
  simp [regRead, h]

/-- A read of a disabled bank draws. -/
theorem afterRead_disabled (s : State) (p : Fin 8) (r : Reg) (h : s.bankEn[p] = false) :
    afterRead s p r = { s with draws := s.draws + 1 } :=
  if_pos (.inr h)

/-- The addressed bank of an enabled port after a write. -/
theorem regWrite_bank_self_enabled (s : State) (p : Fin 8) (r : Reg) (v : Word) (h : s.bankEn[p] = true) :
    (regWrite s p r v).banks[p] = writeBank s.banks[p] r v :=
  (regWrite_bank_self s p r v).trans (if_pos h)

/-- The `ODATA` bits after a write to `SETRST` do not change when the same word is written again (20_memory.md R83). -/
theorem setReset_setReset (o : Half) (v : Word) : setReset (setReset o v) v = setReset o v := by
  refine BitVec.eq_of_getLsbD_eq fun n hn => ?_
  simp only [setReset_getLsbD, hn, decide_true, Bool.true_and]
  cases v.getLsbD n <;> cases v.getLsbD (n + 16) <;> rfl

/-- A bank written twice with the same word is the bank written once (20_memory.md R86). -/
theorem writeBank_writeBank (b : Bank) (r : Reg) (v : Word) : writeBank (writeBank b r v) r v = writeBank b r v := by
  cases r with
  | setrst => simp only [writeBank, setReset_setReset]
  | _ => rfl

/-- Settles O8: a read is the register's value, a write replaces the bank. -/
theorem fullRegistersReadAndStoreAllBits : Obligations.FullRegistersReadAndStoreAllBits := by
  intro s p v h
  have read (r : Reg) := regRead_enabled s p r h
  have write (r : Reg) := regWrite_enabled s p r v h
  exact ⟨read .mode, read .speed, read .pull, read .afl, read .afh,
    write .mode, write .speed, write .pull, write .afl, write .afh⟩

/-- A field of mode Output, by its two bits (30_encoding.md R108). -/
theorem getLsbD_of_extractLsb'_eq_modeOutput (r : Word) (sh : Nat) (h : r.extractLsb' sh 2 = 0b01#2) :
    r.getLsbD sh = true ∧ r.getLsbD (sh + 1) = false := by
  have bit (i : Nat) : (r.extractLsb' sh 2).getLsbD i = (decide (i < 2) && r.getLsbD (sh + i)) :=
    BitVec.getLsbD_extractLsb' ..
  rw [h] at bit
  exact ⟨(bit 0).symm, (bit 1).symm⟩

/-- The pad of an enabled push-pull output shows the bit just written to `ODATA` (20_memory.md R79). -/
theorem padLevel_regWrite_odata (s : State) (p : Fin 8) (v : Word) (n : Fin 16) (h : s.bankEn[p] = true)
    (hmode : s.banks[p].mode.extractLsb' (2 * n.val) 2 = 0b01#2) (hotype : s.banks[p].otype.getLsbD n.val = false) :
    padLevel (regWrite s p .odata v) p n.val = v.getLsbD n.val := by
  obtain ⟨hlow, hhigh⟩ := getLsbD_of_extractLsb'_eq_modeOutput _ _ hmode
  rw [padLevel_enabled _ p n.val (by rw [regWrite_bankEn]; exact h), regWrite_bank_self_enabled s p .odata v h,
    if_pos ⟨hlow, hhigh, hotype⟩]
  simp [writeBank]

/-- Settles O9: the halves as O8; the pad by its level after the write. -/
theorem halfRegistersDiscardTheUpperHalf : Obligations.HalfRegistersDiscardTheUpperHalf := by
  intro s p v h
  have hlow : v.setWidth 16 = v.extractLsb' 0 16 := BitVec.setWidth_eq_extractLsb' (by decide)
  rw [← hlow]
  exact ⟨regRead_enabled s p .otype h, regRead_enabled s p .odata h, regWrite_enabled s p .otype v h,
    regWrite_enabled s p .odata v h, fun n => padLevel_regWrite_odata s p v n h⟩

/-- Settles O13: on an enabled bank by the bank, on a disabled one because no write does anything. -/
theorem writingTwiceIsWritingOnce : Obligations.WritingTwiceIsWritingOnce := by
  intro s p r v
  cases h : s.bankEn[p] with
  | true =>
    have henabled : (regWrite s p r v).bankEn[p] = true := by rw [regWrite_bankEn]; exact h
    rw [regWrite_enabled _ p r v henabled, regWrite_bank_self_enabled s p r v h, writeBank_writeBank,
      regWrite_enabled s p r v h]
    simp
  | false => rw [regWrite_disabled s p r v h, regWrite_disabled s p r v h]

/-- A write to `IDATA` changes no state, on an enabled bank or a disabled one (20_memory.md R81). -/
theorem regWrite_idata (s : State) (p : Fin 8) (v : Word) : regWrite s p .idata v = s := by
  cases h : s.bankEn[p] with
  | true => simp [regWrite_enabled s p .idata v h, writeBank]
  | false => exact regWrite_disabled s p .idata v h

/-- Settles O16: neighbouring bytes join to a longer part of the word, and the four to the whole of it. -/
theorem byteViewIsLittleEndian : Obligations.ByteViewIsLittleEndian := by
  intro v
  have upper : v.extractLsb' 24 8 ++ v.extractLsb' 16 8 = v.extractLsb' 16 16 :=
    BitVec.extractLsb'_append_extractLsb'_eq_extractLsb' rfl
  have middle : v.extractLsb' 16 16 ++ v.extractLsb' 8 8 = v.extractLsb' 8 24 :=
    BitVec.extractLsb'_append_extractLsb'_eq_extractLsb' rfl
  have whole : v.extractLsb' 8 24 ++ v.extractLsb' 0 8 = v.extractLsb' 0 32 :=
    BitVec.extractLsb'_append_extractLsb'_eq_extractLsb' rfl
  change v.extractLsb' 24 8 ++ v.extractLsb' 16 8 ++ v.extractLsb' 8 8 ++ v.extractLsb' 0 8 = v
  rw [upper, middle, whole, BitVec.extractLsb'_eq_self]

/-! ## The transactions a command's list can hold -/

/-- `IsDriven` of the two driven modes (40_configuration.md R134). -/
theorem isDriven_iff (P : Params) (mode : BitVec 2) :
    isDriven P mode = true ↔ mode = Config.modeOutput ∨ mode = P.modeAF := by
  simp [isDriven]

/-- `IsAF` of its one mode (40_configuration.md R135). -/
theorem isAF_iff (P : Params) (mode : BitVec 2) : isAF P mode = true ↔ mode = P.modeAF := by
  simp [isAF]

/-- The transactions of a field update are on the register of its field. -/
theorem mem_fieldUpdate (split : RmwSplit) (l : Loc) (v : Word) (x : Txn) (h : x ∈ fieldUpdate split l v) :
    x = .load l.reg ∨ x = .storeUpdated l v ∨ x = .storeCleared l ∨ x = .storeSet l v := by
  cases split <;> simp [fieldUpdate] at h <;> tauto

/-- The transactions of an `INIT` are those of updates of its five fields (40_configuration.md R136). -/
theorem mem_initScript (P : Params) (mode pull : BitVec 2) (otype : BitVec 1) (speed : BitVec 2) (af : BitVec 4)
    (n : Fin 16) (x : Txn) (h : x ∈ initScript P mode pull otype speed af n) :
    ∃ f ∈ [Field.mode, .pull, .otype, .speed, .af], ∃ v, x ∈ fieldUpdate P.rmwSplit (locate f n) v := by
  simp only [initScript, List.mem_append, List.mem_ite_nil_right] at h
  obtain (h | h) | ⟨-, (h | h) | ⟨-, h⟩⟩ := h
  · exact ⟨.mode, by simp, _, h⟩
  · exact ⟨.pull, by simp, _, h⟩
  · exact ⟨.otype, by simp, _, h⟩
  · exact ⟨.speed, by simp, _, h⟩
  · exact ⟨.af, by simp, _, h⟩

/-- No field an `INIT` updates is in `SETRST` (10_state.md R42). -/
theorem locate_reg_ne_setrst (f : Field) (hf : f ∈ [Field.mode, .pull, .otype, .speed, .af]) (n : Fin 16) :
    (locate f n).reg ≠ .setrst := by
  revert n f
  decide

/-- A plain store stands in the list of a `SET` only, and writes its word to `SETRST` (20_memory.md R71). -/
theorem eq_set_of_store_mem (P : Params) (n : Fin 16) (i : Instr) (r : Reg) (v : Word)
    (h : Txn.store r v ∈ scriptOf P n i) :
    ∃ port pin level, i = .set port pin level ∧ r = .setrst ∧ v = setWord level n := by
  cases i with
  | init _ _ mode pull otype speed af =>
    obtain ⟨f, -, w, hx⟩ := mem_initScript _ _ _ _ _ _ _ _ h
    simpa using mem_fieldUpdate _ _ _ _ hx
  | initNull => simp [scriptOf] at h
  | set port pin level => exact ⟨port, pin, level, rfl, by simpa [scriptOf, setScript] using h⟩
  | tgl _ _ => simp [scriptOf, tglScript] at h
  | rd _ _ => simp [scriptOf, rdScript] at h

/-- No command reads `SETRST` (20_memory.md R84). -/
theorem load_setrst_notMem_scriptOf (P : Params) (n : Fin 16) (i : Instr) : Txn.load .setrst ∉ scriptOf P n i := by
  intro h
  cases i with
  | init _ _ mode pull otype speed af =>
    obtain ⟨f, hf, w, hx⟩ := mem_initScript _ _ _ _ _ _ _ _ h
    have hreg : (locate f n).reg = .setrst := by simpa [eq_comm] using mem_fieldUpdate _ _ _ _ hx
    exact locate_reg_ne_setrst f hf n hreg
  | initNull => simp [scriptOf] at h
  | set _ _ level => simp [scriptOf, setScript] at h
  | tgl _ _ => simp [scriptOf, tglScript] at h
  | rd _ _ => simp [scriptOf, rdScript] at h

/-- Settles O11: the write, the read of an enabled bank, the lists of the commands. -/
theorem idataIgnoresWritesSetrstReadsZero : Obligations.IdataIgnoresWritesSetrstReadsZero :=
  ⟨regWrite_idata, fun s p h => ⟨regRead_enabled s p .setrst h, afterRead_enabled s p .setrst h (by decide)⟩,
    load_setrst_notMem_scriptOf⟩

/-- A `SET` writes a word of one bit, in one half or the other (41_pin_io.md R151). -/
theorem setWord_getLsbD_not_both (level : BitVec 2) (n : Fin 16) (m : Nat) :
    ¬((setWord level n).getLsbD m = true ∧ (setWord level n).getLsbD (m + 16) = true) := by
  obtain ⟨b, hb⟩ : ∃ b, setWord level n = BitVec.twoPow 32 b := by
    unfold setWord
    split <;> exact ⟨_, (BitVec.twoPow_eq ..).symm⟩
  simp only [hb, BitVec.getLsbD_twoPow, Bool.and_eq_true, decide_eq_true_eq]
  omega

/-- Settles O12: the new `ODATA` bit by bit; the one command that writes `SETRST` writes a word of one bit. -/
theorem setrstWriteActsOnOdata : Obligations.SetrstWriteActsOnOdata := by
  refine ⟨fun s p v h => ⟨setReset s.banks[p].odata v, regWrite_enabled s p .setrst v h, fun n hn => ?bits⟩, ?commands⟩
  case bits =>
    rw [setReset_getLsbD, decide_eq_true hn, Bool.true_and]
    exact ⟨fun hs => by simp [hs], fun hs hr => by simp [hs, hr], fun hs hr => by simp [hs, hr]⟩
  case commands =>
    intro P n i v h m _
    obtain ⟨port, pin, level, -, -, rfl⟩ := eq_set_of_store_mem P n i _ v h
    exact setWord_getLsbD_not_both level n m

/-! ## The table of the registers each command reaches -/

/-- What a transaction does: a read (`true`) or a write (`false`), and of which register (20_memory.md R71). -/
def txnKind : Txn → Bool × Reg
  | .load r => (true, r)
  | .loadLevel _ => (true, .idata)
  | .storeUpdated l _ => (false, l.reg)
  | .storeCleared l => (false, l.reg)
  | .storeSet l _ => (false, l.reg)
  | .storeFlipped r _ => (false, r)
  | .store r _ => (false, r)

/-- What a field update of register `r` does: one read and write of it, or two (40_configuration.md R132, R133). -/
def updateKinds (split : RmwSplit) (r : Reg) : List (Bool × Reg) :=
  match split with
  | .one => [(true, r), (false, r)]
  | .two => [(true, r), (false, r), (true, r), (false, r)]

theorem map_txnKind_fieldUpdate (split : RmwSplit) (l : Loc) (v : Word) :
    (fieldUpdate split l v).map txnKind = updateKinds split l.reg := by
  cases split <;> rfl

/-- The register of a pin's alternate function (10_state.md R42). -/
theorem locate_af_reg (n : Fin 16) : (locate .af n).reg = if n.val < 8 then .afl else .afh := by
  by_cases hn : n.val < 8
  · rw [locate_af_of_lt n hn, if_pos hn]
  · rw [locate_af_of_ge n (Nat.not_lt.mp hn), if_neg hn]

/-- The registers an `INIT` reaches, by whether its mode is driven and whether it is the alternate function
(20_memory.md R71). -/
theorem map_txnKind_initScript (P : Params) (mode pull : BitVec 2) (otype : BitVec 1) (speed : BitVec 2) (af : BitVec 4)
    (n : Fin 16) :
    (initScript P mode pull otype speed af n).map txnKind =
      updateKinds P.rmwSplit .mode ++ updateKinds P.rmwSplit .pull ++
      (if isDriven P mode then
        updateKinds P.rmwSplit .otype ++ updateKinds P.rmwSplit .speed ++
        (if isAF P mode then updateKinds P.rmwSplit (if n.val < 8 then .afl else .afh) else [])
      else []) := by
  simp only [initScript, List.map_append, map_txnKind_fieldUpdate, apply_ite (List.map txnKind), List.map_nil,
    locate_af_reg]
  rfl

/-- Settles O15: `INIT` by its three kinds of mode, the other commands by their one list. -/
theorem commandsReachOnlyTheTabledRegisters : Obligations.CommandsReachOnlyTheTabledRegisters := by
  intro P n
  refine ⟨fun _ _ mode pull otype speed af hout haf => ?other, fun _ _ mode pull otype speed af hout haf => ?output,
    fun _ _ mode pull otype speed af haf => ?alternate, rfl, fun _ _ _ => rfl, fun _ _ => rfl, fun _ _ => rfl⟩
  case other =>
    have hdriven : ¬isDriven P mode = true := by simp [isDriven_iff, Config.modeOutput, hout, haf]
    have h := map_txnKind_initScript P mode pull otype speed af n
    rw [if_neg hdriven, List.append_nil] at h
    exact h
  case output =>
    have hdriven : isDriven P mode = true := (isDriven_iff P mode).mpr (.inl hout)
    have halternate : ¬isAF P mode = true := by simp [isAF_iff, haf]
    have h := map_txnKind_initScript P mode pull otype speed af n
    rw [if_pos hdriven, if_neg halternate, List.append_nil, ← List.append_assoc] at h
    exact h
  case alternate =>
    have hdriven : isDriven P mode = true := (isDriven_iff P mode).mpr (.inr haf)
    have halternate : isAF P mode = true := (isAF_iff P mode).mpr haf
    have h := map_txnKind_initScript P mode pull otype speed af n
    rw [if_pos hdriven, if_pos halternate, ← List.append_assoc, ← List.append_assoc] at h
    exact h

/-! ## A command on a disabled bank -/

/-- A move of the executing context is a step of its command: the converse of `exec_next`. -/
theorem exec_of_commandMove (i : Instr) (s u : State) (k k' : Context) (hk : s.ctxs[s.cur]? = some k)
    (move : CommandMove i s k u k') : exec i s = .next (setContext u s.cur k') := by
  rw [exec_eq_commandStep]
  cases move with
  | rejected st hv hu => rw [hv, commandStep_reject st _ s k hk (BitVec.eq_of_toNat_eq hu)]
  | validated p n hv hu => rw [hv, commandStep_pass_start p n _ s k hk (BitVec.eq_of_toNat_eq hu)]
  | finished p n j x hv hu hx hl => rw [hv, commandStep_pass_txn p n _ s k j x hk hu hx, if_pos hl]
  | continued p n j x hv hu hx hl => rw [hv, commandStep_pass_txn p n _ s k j x hk hu hx, if_neg hl]

/-- A transaction on a disabled bank leaves every bank as it is (20_memory.md R87). -/
theorem txnState_banks_disabled (s : State) (k : Context) (p : Fin 8) (x : Txn) (h : s.bankEn[p] = false) :
    (txnState s k p x).banks = s.banks := by
  cases x <;> simp only [txnState, afterRead_banks, regWrite_disabled s p _ _ h]

/-- A command on a disabled bank leaves every bank as it is (20_memory.md R87). -/
theorem CommandMove.banks_disabled {i : Instr} {s u : State} {k k' : Context} {p : Fin 8} {n : Fin 16}
    (move : CommandMove i s k u k') (hp : validate i = .pass p n) (h : s.bankEn[p] = false) : u.banks = s.banks := by
  have same (q : Fin 8) (m : Fin 16) (hq : validate i = .pass q m) : s.bankEn[q] = false := by
    cases hp.symm.trans hq
    exact h
  cases move with
  | rejected => rfl
  | validated => rfl
  | finished q m j x hq => exact txnState_banks_disabled s k q x (same q m hq)
  | continued q m j x hq => exact txnState_banks_disabled s k q x (same q m hq)

/-- What a command reports does not depend on the banks or their enables: from any state `t` with the same parameters
the same context makes a move of the same kind (20_memory.md R87). -/
theorem CommandMove.reports_alike {i : Instr} {s u : State} {k k' : Context} (move : CommandMove i s k u k')
    (t : State) (ht : t.params = s.params) :
    ∃ v k₁, CommandMove i t k v k₁ ∧ v.ctxs = t.ctxs ∧
      k'.busy = k₁.busy ∧ k'.status = k₁.status ∧ k'.respValid = k₁.respValid ∧ k'.ustep = k₁.ustep := by
  cases move with
  | rejected st hv hu => exact ⟨_, _, .rejected st hv hu, rfl, rfl, rfl, rfl, rfl⟩
  | validated p n hv hu => exact ⟨_, _, .validated p n hv hu, rfl, rfl, rfl, rfl, rfl⟩
  | finished p n j x hv hu hx hl =>
    rw [← ht] at hx hl
    exact ⟨_, _, .finished p n j x hv hu hx hl, txnState_ctxs .., by simp⟩
  | continued p n j x hv hu hx hl =>
    rw [← ht] at hx hl
    exact ⟨_, _, .continued p n j x hv hu hx hl, txnState_ctxs .., by simp⟩

/-- Settles O14: the rules of the two transactions on a disabled bank; a step of a command by its move, once as it is
and once with the bank enabled. -/
theorem disabledBankIgnoresCommands : Obligations.DisabledBankIgnoresCommands := by
  intro s p h
  refine ⟨fun r v => regWrite_disabled s p r v h,
    fun r => ⟨regRead_disabled s p r h, afterRead_disabled s p r h⟩, fun i n t hp hexec => ?command⟩
  case command =>
    obtain ⟨k, u, k', hk, move, rfl⟩ := exec_next i s t hexec
    obtain ⟨v, k₁, move₁, hctxs, hreports⟩ := move.reports_alike { s with bankEn := s.bankEn.set p true } rfl
    have hlt := (List.getElem?_eq_some_iff.mp hk).1
    refine ⟨move.banks_disabled hp h, _, k', k₁, exec_of_commandMove i _ v k k₁ hk move₁, ?own, ?enabled, hreports⟩
    case own => simp [move.ctxs_eq, List.getElem?_set_self hlt]
    case enabled => simp [hctxs, List.getElem?_set_self hlt]

/-! ## Platform addresses -/

/-- The registers in the order of their ids (10_state.md R31). -/
def allRegs : List Reg := [.mode, .otype, .speed, .pull, .idata, .odata, .setrst, .afl, .afh]

/-- The 72 platform addresses are those of the 72 locations (20_memory.md R72). -/
theorem addresses_eq (P : Params) : P.addresses = allLocations.map fun l => regAddress P l.1 l.2 := by
  have hbase : P.base.toList = (List.finRange 8).map fun p => P.base[p] := by
    refine List.ext_getElem (by simp) fun i _ _ => ?_
    rw [Vector.getElem_toList, List.getElem_map, List.getElem_finRange]
    rfl
  have hoff : P.off.toList = allRegs.map fun r => P.off.toList.getD (regId r) 0 := by
    refine List.ext_getElem (by simp [allRegs]) fun i h _ => ?_
    have hi : i < 9 := by simpa using h
    interval_cases i <;> simp [allRegs, regId]
  have hloc : allLocations = (List.finRange 8).flatMap fun p => allRegs.map (Prod.mk p) := by decide
  rw [Params.addresses, hloc, List.map_flatMap, hbase, List.flatMap_map]
  conv_lhs => rw [hoff]
  simp only [List.map_map]
  rfl

/-- Under a legal map no two locations share an address, so an address names its register (20_memory.md R72). -/
theorem regAt_regAddress (P : Params) (h : P.legal = true) (p : Fin 8) (r : Reg) :
    regAt P (regAddress P p r) = some (p, r) := by
  obtain ⟨-, -, -, hdistinct, -⟩ := (legal_iff P).mp h
  rw [addresses_eq] at hdistinct
  cases hfound : regAt P (regAddress P p r) with
  | none => exact absurd rfl ((regAt_eq_none_iff P _).mp hfound p r)
  | some l =>
    have hsame := regAt_eq_some P _ l hfound
    have hloc : l = (p, r) :=
      List.inj_on_of_nodup_map hdistinct (mem_allLocations l.1 l.2) (mem_allLocations p r) hsame.symm
    rw [hloc]

/-- Under a legal map every register's address is a multiple of 4 (20_memory.md R72). -/
theorem regAddress_aligned (P : Params) (h : P.legal = true) (p : Fin 8) (r : Reg) : regAddress P p r % 4 = 0 := by
  obtain ⟨-, -, -, -, haligned⟩ := (legal_iff P).mp h
  refine haligned _ ?_
  rw [addresses_eq]
  exact List.mem_map.mpr ⟨(p, r), mem_allLocations p r, rfl⟩

/-- Settles O40: the step is the bus's transaction; then by the size and by the register found at the address. -/
theorem platformAddressesNameRegisters : Obligations.PlatformAddressesNameRegisters := by
  intro s rest addr size v hlegal idle noStep
  have hread (width : Nat) (hin : s.inputs = .busRead addr width :: rest) : step s = platformRead idle addr width :=
    step_of_input_done s _ rest _ hin rfl
  have hwrite (width : Nat) (hin : s.inputs = .busWrite addr width v :: rest) :
      step s = platformWrite idle addr width v :=
    step_of_input_done s _ rest _ hin rfl
  have outside (h : ∀ (p : Fin 8) (r : Reg), addr ≠ regAddress s.params p r) : noStep 4 (.noRegisterAt addr) := by
    have hnone : regAt idle.params addr = none := (regAt_eq_none_iff _ _).mpr h
    exact ⟨fun hin => by simp [hread 4 hin, platformRead, hnone],
      fun hin => by simp [hwrite 4 hin, platformWrite, hnone]⟩
  refine ⟨?register, fun hsize => ?size, outside, fun hunaligned => outside fun p r haddr => ?unaligned⟩
  case register =>
    rintro p r rfl
    have hsome : regAt idle.params (regAddress s.params p r) = some (p, r) := regAt_regAddress _ hlegal p r
    exact ⟨fun hin => by simp [hread 4 hin, platformRead, hsome, portRead],
      fun hin => by simp [hwrite 4 hin, platformWrite, hsome]⟩
  case size =>
    exact ⟨fun hin => by simp [hread size hin, platformRead, hsize],
      fun hin => by simp [hwrite size hin, platformWrite, hsize]⟩
  case unaligned =>
    rw [haddr] at hunaligned
    exact hunaligned (regAddress_aligned _ hlegal p r)

/-! ## The race of `TGL` and `SET` -/

/-- A prescribed step of a busy context is a move of the command it latched (10_state.md R55). -/
theorem step_of_run_commandMove (s u : State) (c : Nat) (i : Instr) (k k' : Context) (rest : List Input)
    (hin : s.inputs = .run c :: rest) (hk : s.ctxs[c]? = some k) (hb : k.busy = true) (hi : decodeWord k.cmd = i)
    (move : CommandMove i { s with inputs := rest, cur := c } k u k') : step s = .next (setContext u c k') := by
  subst hi
  exact (step_of_run_input s c k rest hin hk hb).trans (exec_of_commandMove _ _ u k k' hk move)

/-- A run of one step more. -/
theorem core_run_of_step (m : Nat) (s t : State) (h : step s = .next t) :
    Host.Core.run Sys2Proof.core (m + 1) s = Host.Core.run Sys2Proof.core m t := by
  have hcore : Sys2Proof.core.step s = .next t := h
  simp only [Host.Core.run, hcore]

/-- A word with the set bit of one pin sets that pin's `ODATA` bit (20_memory.md R83). -/
theorem setReset_setBit (o : Half) (n : Nat) (hn : n < 16) : setReset o (1#32 <<< n) = o ||| (1#16 <<< n) := by
  refine BitVec.eq_of_getLsbD_eq fun i hi => ?_
  rw [setReset_getLsbD, ← BitVec.twoPow_eq, ← BitVec.twoPow_eq, BitVec.getLsbD_or]
  simp only [BitVec.getLsbD_twoPow, hi, hn, show n < 32 by omega, show n ≠ i + 16 by omega, decide_true, decide_false,
    Bool.true_and, Bool.false_eq_true, if_false]
  by_cases h : n = i <;> simp [h]

/-- The race as far as it matters to its end: the steps the `TGL` of pin 0 and the `SET` of pin 1 have performed, the
word the `TGL` has read (once it has performed two), and `ODATA`. -/
structure Race where
  tglSteps : Nat
  setSteps : Nat
  read     : Half
  odata    : Half
deriving DecidableEq

namespace Race

/-- Both commands issued, neither validated, `ODATA` 0. -/
def start : Race := { tglSteps := 0, setSteps := 0, read := 0, odata := 0 }

/-- The step of the `TGL`: validation, the read, the write of the flipped word, which completes it (41_pin_io.md
R155). -/
def tglStep (r : Race) : Option Race :=
  match r.tglSteps with
  | 0 => some { r with tglSteps := 1 }
  | 1 => some { r with tglSteps := 2, read := r.odata }
  | 2 => some { r with tglSteps := 3, odata := r.read ^^^ 1#16 }
  | _ => none

/-- The step of the `SET`: validation, and the write that sets the bit, which completes it (41_pin_io.md R151). -/
def setStep (r : Race) : Option Race :=
  match r.setSteps with
  | 0 => some { r with setSteps := 1 }
  | 1 => some { r with setSteps := 2, odata := r.odata ||| 2#16 }
  | _ => none

/-- The step of context `c`. -/
def move (r : Race) : Nat → Option Race
  | 0 => r.tglStep
  | 1 => r.setStep
  | _ => none

/-- The race after the steps of a schedule. -/
def run (r : Race) (sched : List Nat) : Option Race := sched.foldlM move r

/-- Context 0 after its steps: `TGL A, 0`. -/
def tglContext (r : Race) (k : Context) : Context :=
  let issue := issued k 0x80000000#32
  let reading : Context := { advanced issue with tmp := r.read.setWidth 32 }
  match r.tglSteps with
  | 0 => issue
  | 1 => advanced issue
  | 2 => advanced reading
  | _ => completed (advanced reading) .success

/-- Context 1 after its steps: `SET A, 1, HIGH`. -/
def setCmdContext (r : Race) (k : Context) : Context :=
  let issue := issued k 0x48000001#32
  match r.setSteps with
  | 0 => issue
  | 1 => advanced issue
  | _ => completed (advanced issue) .success

theorem tglContext_complete (r : Race) (k : Context) (h : r.tglSteps = 3) :
    (r.tglContext k).busy = false ∧ (r.tglContext k).status = .success := by
  simp [tglContext, h]

theorem setCmdContext_complete (r : Race) (k : Context) (h : r.setSteps = 2) :
    (r.setCmdContext k).busy = false ∧ (r.setCmdContext k).status = .success := by
  simp [setCmdContext, h]

/-- The contexts of the race. -/
def contexts (r : Race) (k0 k1 : Context) (others : List Context) : List Context :=
  r.tglContext k0 :: r.setCmdContext k1 :: others

/-- State `t` shows race `r`, with the steps of `sched` still prescribed. -/
structure Shows (r : Race) (k0 k1 : Context) (others : List Context) (sched : List Nat) (t : State) : Prop where
  inputs  : t.inputs = sched.map Input.run
  ctxs    : t.ctxs = r.contexts k0 k1 others
  enabled : t.bankEn[(0 : Fin 8)] = true
  odata   : t.banks[(0 : Fin 8)].odata = r.odata

variable {r r' : Race} {k0 k1 : Context} {others : List Context} {sched : List Nat} {t : State}

/-- A move of context `c`'s command that takes the contexts and `ODATA` from race `r` to race `r'`. -/
theorem Shows.step_of_commandMove {c : Nat} {i : Instr} {k k' : Context} {u : State}
    (h : r.Shows k0 k1 others (c :: sched) t)
    (hk : (r.contexts k0 k1 others)[c]? = some k) (hb : k.busy = true) (hi : decodeWord k.cmd = i)
    (move : CommandMove i { t with inputs := sched.map Input.run, cur := c } k u k')
    (hctxs : (r.contexts k0 k1 others).set c k' = r'.contexts k0 k1 others)
    (hodata : u.banks[(0 : Fin 8)].odata = r'.odata) :
    ∃ t', step t = .next t' ∧ r'.Shows k0 k1 others sched t' := by
  refine ⟨_, step_of_run_commandMove t u c i k k' _ h.inputs (h.ctxs ▸ hk) hb hi move, ?_⟩
  refine { inputs := move.inputs_eq, ctxs := ?_, enabled := ?_, odata := hodata }
  · rw [setContext_ctxs, move.ctxs_eq, ← hctxs]
    exact congrArg (List.set · c k') h.ctxs
  · rw [setContext_bankEn, move.bankEn_eq]
    exact h.enabled

theorem decodeWord_tglWord : decodeWord 0x80000000#32 = .tgl 0 0 := by decide
theorem validate_tgl : validate (.tgl 0 0) = .pass 0 0 := by decide
theorem decodeWord_setWord : decodeWord 0x48000001#32 = .set 0 1 1 := by decide
theorem validate_set : validate (.set 0 1 1) = .pass 0 1 := by decide

/-- The step of context 0 is that of the `TGL` of the race. -/
theorem Shows.step_tgl (h : r.Shows k0 k1 others (0 :: sched) t) (hmove : r.tglStep = some r') :
    ∃ t', step t = .next t' ∧ r'.Shows k0 k1 others sched t' := by
  obtain ⟨tglSteps, setSteps, read, odata⟩ := r
  match tglSteps with
  | 0 =>
    cases hmove
    exact h.step_of_commandMove rfl rfl decodeWord_tglWord (.validated 0 0 validate_tgl rfl) rfl h.odata
  | 1 =>
    cases hmove
    have hread : regRead { t with inputs := sched.map Input.run, cur := 0 } 0 .odata = odata.setWidth 32 :=
      (regRead_enabled _ 0 .odata h.enabled).trans (congrArg (BitVec.setWidth 32) h.odata)
    refine h.step_of_commandMove rfl rfl decodeWord_tglWord
      (.continued 0 0 0 (.load .odata) validate_tgl rfl rfl (by simp [scriptOf, tglScript])) ?_ ?_
    · simp only [txnContext, hread]
      rfl
    · simpa [txnState] using h.odata
  | 2 =>
    cases hmove
    refine h.step_of_commandMove rfl rfl decodeWord_tglWord
      (.finished 0 0 1 (.storeFlipped .odata 0) validate_tgl rfl rfl rfl) rfl ?_
    have hbank (v : Word) :=
      regWrite_bank_self_enabled { t with inputs := sched.map Input.run, cur := 0 } 0 .odata v h.enabled
    refine (congrArg Bank.odata (hbank _)).trans ?_
    simp [writeBank, tglContext]
  | _ + 3 => cases hmove

/-- The step of context 1 is that of the `SET` of the race. -/
theorem Shows.step_set (h : r.Shows k0 k1 others (1 :: sched) t) (hmove : r.setStep = some r') :
    ∃ t', step t = .next t' ∧ r'.Shows k0 k1 others sched t' := by
  obtain ⟨tglSteps, setSteps, read, odata⟩ := r
  match setSteps with
  | 0 =>
    cases hmove
    exact h.step_of_commandMove rfl rfl decodeWord_setWord (.validated 0 1 validate_set rfl) rfl h.odata
  | 1 =>
    cases hmove
    refine h.step_of_commandMove rfl rfl decodeWord_setWord
      (.finished 0 1 0 (.store .setrst (1#32 <<< 1)) validate_set rfl rfl rfl) rfl ?_
    have hbank (v : Word) :=
      regWrite_bank_self_enabled { t with inputs := sched.map Input.run, cur := 1 } 0 .setrst v h.enabled
    refine (congrArg Bank.odata (hbank _)).trans ?_
    exact (setReset_setBit _ 1 (by decide)).trans (congrArg (· ||| 2#16) h.odata)
  | _ + 2 => cases hmove

/-- The run of the machine shows the run of the race. -/
theorem Shows.run (h : r.Shows k0 k1 others sched t) (hrun : r.run sched = some r') :
    ∃ t', Host.Core.run Sys2Proof.core sched.length t = .next t' ∧ r'.Shows k0 k1 others [] t' := by
  induction sched generalizing r t with
  | nil =>
    cases hrun
    exact ⟨t, rfl, h⟩
  | cons c sched ih =>
    obtain ⟨r₁, hmove, hrest⟩ := Option.bind_eq_some_iff.mp hrun
    obtain ⟨t₁, hstep, h₁⟩ : ∃ t₁, step t = .next t₁ ∧ r₁.Shows k0 k1 others sched t₁ := by
      match c with
      | 0 => exact h.step_tgl hmove
      | 1 => exact h.step_set hmove
      | _ + 2 => cases hmove
    obtain ⟨t', hrun', h'⟩ := ih h₁ hrest
    exact ⟨t', (core_run_of_step _ t t₁ hstep).trans hrun', h'⟩

/-- State `s` with both issues prescribed, and then the steps of `sched`. -/
def prescribed (s : State) (sched : List Nat) : State :=
  { s with inputs := .issue 0 0x80000000#32 :: .issue 1 0x48000001#32 :: sched.map Input.run }

/-- The two issues put the machine at the start of the race. -/
theorem core_run_issues (s : State) (sched : List Nat) (m : Nat) (hctxs : s.ctxs = k0 :: k1 :: others)
    (hk0 : k0.busy = false) (hk1 : k1.busy = false) (hen : s.bankEn[0] = true) (hodata : s.banks[0].odata = 0) :
    ∃ t, Host.Core.run Sys2Proof.core (m + 2) (prescribed s sched) = Host.Core.run Sys2Proof.core m t ∧
      start.Shows k0 k1 others sched t := by
  obtain ⟨first, -⟩ := issueLatchesTheWord (prescribed s sched) 0 k0 _ _ (by simp [prescribed, hctxs]) rfl
  obtain ⟨second, -⟩ := issueLatchesTheWord
    { s with
      inputs := .issue 1 0x48000001#32 :: sched.map Input.run
      ctxs := s.ctxs.set 0 (issued k0 0x80000000#32) } 1 k1 _ _ (by simp [hctxs]) rfl
  refine ⟨_, (core_run_of_step _ _ _ (first hk0)).trans (core_run_of_step _ _ _ (second hk1)), ?_⟩
  exact { inputs := rfl, ctxs := by simp only [hctxs]; rfl, enabled := hen, odata := hodata }

/-- The run of a whole schedule from the two issues on. -/
theorem core_run_schedule (s : State) (sched : List Nat) (hctxs : s.ctxs = k0 :: k1 :: others)
    (hk0 : k0.busy = false) (hk1 : k1.busy = false) (hen : s.bankEn[0] = true) (hodata : s.banks[0].odata = 0)
    (hlength : sched.length = 5) (hrun : start.run sched = some r) :
    ∃ t, Host.Core.run Sys2Proof.core 7 (prescribed s sched) = .next t ∧ r.Shows k0 k1 others [] t := by
  obtain ⟨t₀, hissues, h₀⟩ := core_run_issues s sched 5 hctxs hk0 hk1 hen hodata
  obtain ⟨t, hsteps, h⟩ := h₀.run hrun
  rw [hlength] at hsteps
  exact ⟨t, hissues.trans hsteps, h⟩

/-! ### The schedules -/

/-- A list over `choices` is one of the lists that choose each element from `choices`. -/
theorem mem_sections_replicate {α : Type} (choices l : List α) (h : ∀ a ∈ l, a ∈ choices) :
    l ∈ (List.replicate l.length choices).sections := by
  rw [List.mem_sections]
  induction l with
  | nil => exact .nil
  | cons a l ih =>
    obtain ⟨ha, hl⟩ := List.forall_mem_cons.mp h
    exact .cons ha (ih hl)

/-- How the race can end: the `SET` writes after the `TGL` has written; before the `TGL` reads; or between the two, and
its write is lost (70_reset_and_hazards.md R203). -/
def ends : List Race :=
  [{ tglSteps := 3, setSteps := 2, read := 0, odata := 3 },
   { tglSteps := 3, setSteps := 2, read := 2, odata := 3 },
   { tglSteps := 3, setSteps := 2, read := 0, odata := 1 }]

/-- Each of the ten schedules of three steps of the `TGL` and two of the `SET` comes to one of these ends. -/
theorem run_start_mem_ends :
    ∀ sched ∈ (List.replicate 5 [0, 1]).sections, sched.count 0 = 3 → start.run sched ∈ ends.map some := by
  decide

theorem ends_complete :
    ∀ r ∈ ends, r.tglSteps = 3 ∧ r.setSteps = 2 ∧ r.odata ∈ [0x0003#16, 0x0001#16] := by
  decide

end Race

/-- Settles O49: every schedule is one of the ten of the race, which the machine's run shows; 3 where the `SET` does not
write between the read and the write of the `TGL`, and 1 where it does. -/
theorem lostUpdateRaceHasExactlyTwoEnds : Obligations.LostUpdateRaceHasExactlyTwoEnds := by
  intro s k0 k1 others hctxs hk0 hk1 hen hodata start
  have machine (sched : List Nat) (r : Race) := Race.core_run_schedule (r := r) s sched hctxs hk0 hk1 hen hodata
  refine ⟨fun sched hperm => ?every, ?three, ?one⟩
  case every =>
    have hlength : sched.length = 5 := hperm.length_eq
    have hmem := Race.mem_sections_replicate [0, 1] sched fun c hc => by simpa using hperm.mem_iff.mp hc
    rw [hlength] at hmem
    obtain ⟨r, hr, hrun⟩ := List.mem_map.mp (Race.run_start_mem_ends sched hmem (hperm.count_eq 0))
    obtain ⟨htgl, hset, hend⟩ := Race.ends_complete r hr
    obtain ⟨t, ht, h⟩ := machine sched r hlength hrun.symm
    obtain ⟨hidle0, hstatus0⟩ := Race.tglContext_complete r k0 htgl
    obtain ⟨hidle1, hstatus1⟩ := Race.setCmdContext_complete r k1 hset
    exact ⟨t, _, _, ht, h.odata ▸ hend, h.ctxs, hstatus0, hstatus1, hidle0, hidle1⟩
  case three =>
    obtain ⟨t, ht, h⟩ := machine [0, 0, 0, 1, 1] ⟨3, 2, 0, 3⟩ rfl (by decide)
    exact ⟨_, t, .refl _, ht, h.odata⟩
  case one =>
    obtain ⟨t, ht, h⟩ := machine [0, 0, 1, 1, 0] ⟨3, 2, 0, 1⟩ rfl (by decide)
    exact ⟨_, t, by decide, ht, h.odata⟩

end Sys2Proof.Machine

/-! The statements of 30_encoding.md. A record and its word carry the same bits, so what a command reads of its word is
said on records: a command is the pattern its used fields make (`instrOfCmd_eq_iff`), and so for words
(`decodeWord_eq_iff`). The statements are read off these. -/

namespace Sys2Proof

/-! ## The record and the word -/

/-- Each bit of the word lies in exactly one field. -/
theorem wordOfCmd_cmdOfWord (w : Word) : wordOfCmd (cmdOfWord w) = w := by
  refine BitVec.eq_of_getLsbD_eq fun i hi => ?_
  simp only [wordOfCmd, cmdOfWord, BitVec.getLsbD_append, BitVec.getLsbD_extractLsb]
  interval_cases i <;> rfl

/-- A range of a record's word, with the word's width as the sum of the fields' widths, for the rules of `++`. -/
theorem extractLsb_wordOfCmd (c : Cmd) (hi lo : Nat) : (wordOfCmd c).extractLsb hi lo =
    BitVec.extractLsb' lo (hi - lo + 1)
      (c.op ++ c.dv ++ c.level ++ c.af ++ c.speed ++ c.otype ++ c.pull ++ c.mode ++ c.port ++ c.pin) := rfl

/-- Each field is what stands above the fields below it and below the fields above it. -/
theorem cmdOfWord_wordOfCmd (c : Cmd) : cmdOfWord (wordOfCmd c) = c := by
  simp (disch := decide) only [cmdOfWord, extractLsb_wordOfCmd, BitVec.extractLsb'_append_eq_of_le,
    BitVec.extractLsb'_append_eq_of_add_le]
  simp only [Nat.reduceSub, Nat.reduceAdd, BitVec.extractLsb'_eq_self]

/-- Settles O5: the two compositions, field by field. -/
theorem commandRecordHoldsEveryBit : Obligations.CommandRecordHoldsEveryBit :=
  ⟨wordOfCmd_cmdOfWord, cmdOfWord_wordOfCmd⟩

theorem wordOfCmd_inj (c d : Cmd) : wordOfCmd c = wordOfCmd d ↔ c = d :=
  (Function.LeftInverse.injective cmdOfWord_wordOfCmd).eq_iff

/-! ## Decoding undoes encoding -/

theorem instrOfCmd_cmdOfInstr (i : Instr) : instrOfCmd (cmdOfInstr i) = i := by
  cases i <;> rfl

theorem decodeWord_wordOfCmd (c : Cmd) : decodeWord (wordOfCmd c) = instrOfCmd c :=
  congrArg instrOfCmd (cmdOfWord_wordOfCmd c)

/-- Settles O2: on records it is `instrOfCmd_cmdOfInstr`, and the word of a record keeps the record. -/
theorem decodeUndoesEncode : Obligations.DecodeUndoesEncode := fun i =>
  (decodeWord_wordOfCmd (cmdOfInstr i)).trans (instrOfCmd_cmdOfInstr i)

/-! ## A command as the pattern of its used fields -/

/-- The fields of `c`, each masked by that of `m`. -/
def Cmd.and (c m : Cmd) : Cmd where
  op    := c.op &&& m.op
  dv    := c.dv &&& m.dv
  level := c.level &&& m.level
  af    := c.af &&& m.af
  speed := c.speed &&& m.speed
  otype := c.otype &&& m.otype
  pull  := c.pull &&& m.pull
  mode  := c.mode &&& m.mode
  port  := c.port &&& m.port
  pin   := c.pin &&& m.pin

theorem wordOfCmd_and (c m : Cmd) : wordOfCmd (c.and m) = wordOfCmd c &&& wordOfCmd m := by
  simp only [wordOfCmd, Cmd.and, ← BitVec.and_append]

/-- The record of `usedMask`: 1s in the fields a command uses, 0s in those it ignores (30_encoding.md R105). -/
def usedFields : Instr → Cmd
  | .init _ _ _ _ _ _ _ =>
    ⟨.allOnes 2, .allOnes 1, 0, .allOnes 4, .allOnes 2, .allOnes 1, .allOnes 2, .allOnes 2, .allOnes 8, .allOnes 8⟩
  | .initNull => ⟨.allOnes 2, .allOnes 1, 0, 0, 0, 0, 0, 0, 0, 0⟩
  | .set _ _ _ => ⟨.allOnes 2, 0, .allOnes 2, 0, 0, 0, 0, 0, .allOnes 8, .allOnes 8⟩
  | .tgl _ _ => ⟨.allOnes 2, 0, 0, 0, 0, 0, 0, 0, .allOnes 8, .allOnes 8⟩
  | .rd _ _ => ⟨.allOnes 2, 0, 0, 0, 0, 0, 0, 0, .allOnes 8, .allOnes 8⟩

theorem wordOfCmd_usedFields (i : Instr) : wordOfCmd (usedFields i) = usedMask i := by
  cases i <;> simp only [usedFields, usedMask] <;> decide

/-- The five rows of the opcode map on a record (30_encoding.md R104). -/
theorem instrOfCmd_cases (c : Cmd) :
    (c.op = 0 ∧ c.dv = 1 ∧ instrOfCmd c = .init c.port c.pin c.mode c.pull c.otype c.speed c.af) ∨
    (c.op = 0 ∧ c.dv = 0 ∧ instrOfCmd c = .initNull) ∨
    (c.op = 1 ∧ instrOfCmd c = .set c.port c.pin c.level) ∨
    (c.op = 2 ∧ instrOfCmd c = .tgl c.port c.pin) ∨
    (c.op = 3 ∧ instrOfCmd c = .rd c.port c.pin) := by
  have hop : ∀ op : BitVec 2, op = 0 ∨ op = 1 ∨ op = 2 ∨ op = 3 := by decide
  have hdv : ∀ dv : BitVec 1, dv = 1 ∨ dv = 0 := by decide
  obtain h | h | h | h := hop c.op
  · obtain hd | hd := hdv c.dv <;> simp [instrOfCmd, h, hd]
  all_goals simp [instrOfCmd, h]

/-- A record selects command `i` when its fields that `i` uses are those of `i`'s canonical record. -/
theorem instrOfCmd_eq_iff (c : Cmd) (i : Instr) : instrOfCmd c = i ↔ c.and (usedFields i) = cmdOfInstr i := by
  constructor
  · rintro rfl
    obtain ⟨hop, hdv, h⟩ | ⟨hop, hdv, h⟩ | ⟨hop, h⟩ | ⟨hop, h⟩ | ⟨hop, h⟩ := instrOfCmd_cases c <;>
      simp only [*, Cmd.and, usedFields, cmdOfInstr, BitVec.and_allOnes, BitVec.ofNat_eq_ofNat, BitVec.and_zero]
  · intro h
    cases i <;> simp only [Cmd.and, usedFields, cmdOfInstr, BitVec.and_allOnes, Cmd.mk.injEq] at h <;>
      simp [instrOfCmd, h]

/-- A word is of command `i` when its bits that `i` uses are those of `i`'s canonical word. -/
theorem decodeWord_eq_iff (w : Word) (i : Instr) : decodeWord w = i ↔ w &&& usedMask i = encode i := by
  rw [decodeWord, instrOfCmd_eq_iff, ← wordOfCmd_inj, wordOfCmd_and, wordOfCmd_cmdOfWord, wordOfCmd_usedFields,
    encode]

theorem encode_decodeWord (w : Word) : encode (decodeWord w) = w &&& usedMask (decodeWord w) :=
  ((decodeWord_eq_iff w _).mp rfl).symm

/-- Settles O3: both parts are `decodeWord_eq_iff` for the command `w` decodes to. -/
theorem ignoredFieldsHaveNoEffect : Obligations.IgnoredFieldsHaveNoEffect :=
  ⟨encode_decodeWord, fun w w' h => (decodeWord_eq_iff w' _).mpr (h.symm.trans (encode_decodeWord w).symm)⟩

/-! ## The rows of the opcode map -/

/-- Two rows of the map differ in a bit that both mask. -/
theorem eq_of_row_patterns_agree : ∀ row ∈ opcodeMap, ∀ other ∈ opcodeMap,
    row.pattern &&& other.mask = other.pattern &&& row.mask → row = other := by
  decide

theorem eq_of_rows_match (w : Word) (row other : OpcodeRow) (hrow : row ∈ opcodeMap) (hother : other ∈ opcodeMap)
    (h : w &&& row.mask = row.pattern) (h' : w &&& other.mask = other.pattern) : row = other := by
  refine eq_of_row_patterns_agree row hrow other hother ?_
  rw [← h, ← h', BitVec.and_assoc, BitVec.and_assoc, BitVec.and_comm row.mask]

/-- The laws of Laws/PerInstr.lean, for every command. -/
theorem opcodeRowHolds (i : Instr) : Laws.OpcodeRowHolds.Statement i := by
  cases i with
  | init => exact Laws.OpcodeRowHolds.init ..
  | initNull => exact Laws.OpcodeRowHolds.initNull
  | set => exact Laws.OpcodeRowHolds.set ..
  | tgl => exact Laws.OpcodeRowHolds.tgl ..
  | rd => exact Laws.OpcodeRowHolds.rd ..

/-- A row tests only bits that its command uses. -/
theorem usedMask_and_mask (i : Instr) :
    ∀ row ∈ opcodeMap, row.mnemonic = mnemonic i → usedMask i &&& row.mask = row.mask := by
  cases i <;> simp only [mnemonic, usedMask] <;> decide

theorem exists_row_of_decodeWord (w : Word) :
    ∃ row ∈ opcodeMap, row.mnemonic = mnemonic (decodeWord w) ∧ w &&& row.mask = row.pattern := by
  obtain ⟨row, hrow, hname, hmatch⟩ := opcodeRowHolds (decodeWord w)
  refine ⟨row, hrow, hname, ?_⟩
  calc w &&& row.mask
    _ = w &&& usedMask (decodeWord w) &&& row.mask := by
        rw [BitVec.and_assoc, usedMask_and_mask _ row hrow hname]
    _ = encode (decodeWord w) &&& row.mask := by rw [encode_decodeWord]
    _ = row.pattern := of_decide_eq_true hmatch

/-- Settles O4: a word lies in the row of the command it decodes to, and in no other, since the rows exclude each
other. -/
theorem opcodeRowsPartitionAllWords : Obligations.OpcodeRowsPartitionAllWords := by
  refine ⟨rfl, fun w => ?_⟩
  obtain ⟨row, hrow, hname, h⟩ := exists_row_of_decodeWord w
  exact ⟨row, hrow, hname, h, fun other hother h' => eq_of_rows_match w other row hother hrow h' h⟩

/-! ## The worked encodings -/

/-- Settles O1: no operand of the five lines stands for a code that the parameters give, so each line evaluates. -/
theorem workedEncodingsAssembleAndDecode : Obligations.WorkedEncodingsAssembleAndDecode := by
  refine ⟨fun P => ⟨rfl, rfl, rfl, rfl, rfl⟩, ?decoded⟩
  case decoded => decide

end Sys2Proof

/-! The statements of 40_configuration.md. An `INIT` is the updates of a list of fields (`initScript_eq_flatMap`), from
which a step is read off by field and place (`exec_init_of_field`) and the registers it may write by its mode
(`InitWrites`). A command run alone is the run of its transactions (`execFor_of_pass`), and the run of a field update is
the update of its bank (`txnRun_fieldUpdate`). The statements are read off these. -/

namespace Sys2Proof.Machine

/-! ## The fields of an `INIT` -/

/-- The fields a valid `INIT` updates, in order, each with its new value (40_configuration.md R136). -/
def initFields (P : Params) (mode pull : BitVec 2) (otype : BitVec 1) (speed : BitVec 2) (af : BitVec 4) (n : Fin 16) :
    List (Loc × Word) :=
  [(locate .mode n, mode.setWidth 32), (locate .pull n, pull.setWidth 32)] ++
  (if isDriven P mode then [(locate .otype n, otype.setWidth 32), (locate .speed n, speed.setWidth 32)] else []) ++
  (if isAF P mode then [(locate .af n, af.setWidth 32)] else [])

/-- The alternate-function mode is driven (40_configuration.md R134, R135). -/
theorem isDriven_of_isAF (P : Params) (mode : BitVec 2) (h : isAF P mode = true) : isDriven P mode = true :=
  (isDriven_iff P mode).mpr (.inr ((isAF_iff P mode).mp h))

/-- The list of an `INIT` is the updates of its fields, one after another (40_configuration.md R136). -/
theorem initScript_eq_flatMap (P : Params) (mode pull : BitVec 2) (otype : BitVec 1) (speed : BitVec 2) (af : BitVec 4)
    (n : Fin 16) :
    initScript P mode pull otype speed af n =
      (initFields P mode pull otype speed af n).flatMap fun x => fieldUpdate P.rmwSplit x.1 x.2 := by
  cases hdriven : isDriven P mode with
  | true => cases halternate : isAF P mode <;> simp [initScript, initFields, hdriven, halternate]
  | false =>
    have halternate : ¬isAF P mode = true := fun h => by simp [isDriven_of_isAF P mode h] at hdriven
    simp [initScript, initFields, hdriven, halternate]

/-- The registers an `INIT` of pin `n` may write, by its mode (20_memory.md R71). -/
def InitWrites (P : Params) (mode : BitVec 2) (n : Nat) : Reg → Prop
  | .mode   => True
  | .pull   => True
  | .otype  => isDriven P mode = true
  | .speed  => isDriven P mode = true
  | .afl    => isAF P mode = true ∧ n < 8
  | .afh    => isAF P mode = true ∧ 8 ≤ n
  | .idata  => False
  | .odata  => False
  | .setrst => False

/-- Each field of an `INIT` lies in a register that the `INIT` may write. -/
theorem initWrites_of_mem_initFields (P : Params) (mode pull : BitVec 2) (otype : BitVec 1) (speed : BitVec 2)
    (af : BitVec 4) (n : Fin 16) (x : Loc × Word) (h : x ∈ initFields P mode pull otype speed af n) :
    InitWrites P mode n.val x.1.reg := by
  simp only [initFields, List.mem_append, List.mem_cons, List.not_mem_nil, or_false, List.mem_ite_nil_right] at h
  obtain ((rfl | rfl) | ⟨hdriven, rfl | rfl⟩) | ⟨halternate, rfl⟩ := h
  · trivial
  · trivial
  · exact hdriven
  · exact hdriven
  · rw [locate_af_reg]
    split
    case isTrue hn => exact ⟨halternate, hn⟩
    case isFalse hn => exact ⟨halternate, Nat.not_lt.mp hn⟩

/-- With parts of equal length, the parts of a joined list stand at the multiples of it. -/
theorem getElem?_flatMap_of_length {α β : Type} (g : α → List β) (m : Nat) (hg : ∀ a, (g a).length = m) (l : List α)
    (f j : Nat) (a : α) (ha : l[f]? = some a) (hj : j < m) : (l.flatMap g)[m * f + j]? = (g a)[j]? := by
  induction l generalizing f with
  | nil => simp at ha
  | cons b l ih =>
    rw [List.flatMap_cons]
    cases f with
    | zero =>
      obtain rfl : b = a := by simpa using ha
      rw [List.getElem?_append_left (by simpa [hg] using hj)]
      simp
    | succ f =>
      have hskip : m * (f + 1) + j = m + (m * f + j) := by ring
      rw [hskip, List.getElem?_append_right (by rw [hg]; omega), hg, Nat.add_sub_cancel_left]
      exact ih f (by simpa using ha)

theorem length_flatMap_of_length {α β : Type} (g : α → List β) (m : Nat) (hg : ∀ a, (g a).length = m) (l : List α) :
    (l.flatMap g).length = m * l.length := by
  simp [List.length_flatMap, hg, Nat.mul_comm]

/-! ## A step of an `INIT` -/

/-- The number of transactions of a field update (40_configuration.md R132, R133). -/
def updateLength : RmwSplit → Nat
  | .one => 2
  | .two => 4

theorem length_fieldUpdate (split : RmwSplit) (l : Loc) (v : Word) :
    (fieldUpdate split l v).length = updateLength split := by
  cases split <;> rfl

/-- Counting `m` to a part, the `j`-th place of part `f` is the last of `len` parts only at the end of the last one. -/
theorem mul_add_succ_eq_mul_iff {m f j len : Nat} (hj : j < m) (hf : f < len) :
    m * f + j + 1 = m * len ↔ j + 1 = m ∧ f + 1 = len := by
  obtain ⟨d, rfl⟩ := Nat.exists_eq_add_of_lt hf
  have hrest : m * (f + d + 1) = m * f + (m * d + m) := by ring
  constructor
  · intro h
    have hd : m * d = 0 := by omega
    have hd : d = 0 := (Nat.mul_eq_zero.mp hd).resolve_left (by omega)
    subst hd
    omega
  · rintro ⟨rfl, hlast⟩
    obtain rfl : d = 0 := by omega
    omega

section InitStep

variable {s : State} {k : Context} {port pin : BitVec 8} {mode pull : BitVec 2} {otype : BitVec 1} {speed : BitVec 2}
  {af : BitVec 4} {p : Fin 8} {n : Fin 16}

/-- A valid `INIT` performs transaction `j` of the update of its field `f`; the last one of the last field completes it
(40_configuration.md R136). -/
theorem exec_init_of_field (hk : s.ctxs[s.cur]? = some k) (hp : port.toNat = p.val) (hn : pin.toNat = n.val)
    (f j : Nat) (l : Loc) (v : Word) (x : Txn)
    (hf : (initFields s.params mode pull otype speed af n)[f]? = some (l, v))
    (hx : (fieldUpdate s.params.rmwSplit l v)[j]? = some x)
    (hu : k.ustep.toNat = updateLength s.params.rmwSplit * f + j + 1) :
    exec (.init port pin mode pull otype speed af) s =
      .next (setContext (txnState s k p x) s.cur
        (if j + 1 = updateLength s.params.rmwSplit ∧
            f + 1 = (initFields s.params mode pull otype speed af n).length then
          completed (txnContext s k p x) .success
        else advanced (txnContext s k p x))) := by
  have hj : j < updateLength s.params.rmwSplit := by
    rw [← length_fieldUpdate _ l v]
    exact (List.getElem?_eq_some_iff.mp hx).1
  have hlt : f < (initFields s.params mode pull otype speed af n).length := (List.getElem?_eq_some_iff.mp hf).1
  have hscript : scriptOf s.params n (.init port pin mode pull otype speed af) = _ :=
    initScript_eq_flatMap s.params mode pull otype speed af n
  have hparts (a : Loc × Word) := length_fieldUpdate s.params.rmwSplit a.1 a.2
  have hget := getElem?_flatMap_of_length _ _ hparts _ f j _ hf hj
  have hlen := length_flatMap_of_length _ _ hparts (initFields s.params mode pull otype speed af n)
  have hv : validate (.init port pin mode pull otype speed af) = .pass p n := validatePin_valid port pin p n hp hn
  rw [exec_eq_commandStep, hv, commandStep_pass_txn p n _ s k _ x hk hu (by rw [hscript, hget, hx]), hscript, hlen]
  simp only [mul_add_succ_eq_mul_iff hj hlt]
  split <;> rfl

/-- The read of field `f` with `RMW_SPLIT = 1` (40_configuration.md R132). -/
theorem exec_init_load (hk : s.ctxs[s.cur]? = some k) (hsplit : s.params.rmwSplit = .one) (hp : port.toNat = p.val)
    (hn : pin.toNat = n.val) (f : Nat) (l : Loc) (v : Word)
    (hf : (initFields s.params mode pull otype speed af n)[f]? = some (l, v)) (hu : k.ustep.toNat = 2 * f + 1) :
    exec (.init port pin mode pull otype speed af) s =
      .next (setContext (afterRead s p l.reg) s.cur { k with tmp := regRead s p l.reg, ustep := k.ustep + 1 }) := by
  rw [exec_init_of_field hk hp hn f 0 l v (.load l.reg) hf (by rw [hsplit]; rfl) (by rw [hsplit]; exact hu), hsplit]
  rfl

/-- The write of field `f` with `RMW_SPLIT = 1` (40_configuration.md R132, R138). -/
theorem exec_init_store (hk : s.ctxs[s.cur]? = some k) (hsplit : s.params.rmwSplit = .one) (hp : port.toNat = p.val)
    (hn : pin.toNat = n.val) (f : Nat) (l : Loc) (v : Word)
    (hf : (initFields s.params mode pull otype speed af n)[f]? = some (l, v)) (hu : k.ustep.toNat = 2 * f + 2) :
    exec (.init port pin mode pull otype speed af) s =
      .next (setContext (regWrite s p l.reg (updateField k.tmp l.width l.shift v)) s.cur
        (if f + 1 = (initFields s.params mode pull otype speed af n).length then completed k .success
         else advanced k)) := by
  rw [exec_init_of_field hk hp hn f 1 l v (.storeUpdated l v) hf (by rw [hsplit]; rfl) (by rw [hsplit]; exact hu),
    hsplit]
  simp only [updateLength, true_and]
  rfl

end InitStep

section InitFields

variable (P : Params) (mode pull : BitVec 2) (otype : BitVec 1) (speed : BitVec 2) (af : BitVec 4) (n : Fin 16)

/-- The field list of a mode that does not drive the pin. -/
theorem initFields_of_not_driven (h : ¬(mode = 0b01#2 ∨ mode = P.modeAF)) :
    initFields P mode pull otype speed af n =
      [(locate .mode n, mode.setWidth 32), (locate .pull n, pull.setWidth 32)] := by
  have hdriven : ¬isDriven P mode = true := (isDriven_iff P mode).not.mpr h
  have halternate : ¬isAF P mode = true := fun ha => hdriven (isDriven_of_isAF P mode ha)
  rw [initFields, if_neg hdriven, if_neg halternate]
  rfl

/-- The field list of a mode that drives the pin. -/
theorem initFields_of_driven (h : mode = 0b01#2 ∨ mode = P.modeAF) :
    initFields P mode pull otype speed af n =
      [(locate .mode n, mode.setWidth 32), (locate .pull n, pull.setWidth 32),
       (locate .otype n, otype.setWidth 32), (locate .speed n, speed.setWidth 32)] ++
      (if mode = P.modeAF then [(locate .af n, af.setWidth 32)] else []) := by
  have hdriven : isDriven P mode = true := (isDriven_iff P mode).mpr h
  simp only [initFields, if_pos hdriven, isAF_iff]
  rfl

end InitFields

/-- Settles O19: each row is the read or the write of its field; a write completes the command at the end of the field
list of its kind of mode. -/
theorem initStepList : Obligations.InitStepList := by
  intro s k port pin mode pull otype speed af p n hk hsplit hp hn run driven afReg load store done
  let fields := initFields s.params mode pull otype speed af n
  have read (f : Nat) (u : BitVec 5) (l : Loc) (v : Word) (hf : fields[f]? = some (l, v)) (hrow : u.toNat = 2 * f + 1)
      (hu : k.ustep = u) : run = load l.reg (u + 1) := by
    subst hu
    exact exec_init_load hk hsplit hp hn f l v hf hrow
  have write (f : Nat) (u : BitVec 5) (l : Loc) (v : Word) (hf : fields[f]? = some (l, v)) (hrow : u.toNat = 2 * f + 2)
      (hmore : f + 1 ≠ fields.length) (hu : k.ustep = u) :
      run = store l.reg l.width l.shift v { k with ustep := u + 1 } := by
    subst hu
    exact (exec_init_store hk hsplit hp hn f l v hf hrow).trans (by rw [if_neg hmore]; rfl)
  have writeLast (f : Nat) (u : BitVec 5) (l : Loc) (v : Word) (hf : fields[f]? = some (l, v))
      (hrow : u.toNat = 2 * f + 2) (hlast : f + 1 = fields.length) (hu : k.ustep = u) :
      run = store l.reg l.width l.shift v done := by
    subst hu
    exact (exec_init_store hk hsplit hp hn f l v hf hrow).trans (by rw [if_pos hlast]; rfl)
  have hother (h : ¬driven) : fields = _ := initFields_of_not_driven s.params mode pull otype speed af n h
  have hdriven (h : driven) : fields = _ := initFields_of_driven s.params mode pull otype speed af n h
  have hlength (h : driven) : fields.length = if mode = s.params.modeAF then 5 else 4 := by
    rw [hdriven h]; split <;> rfl
  have hotype (h : driven) : fields[2]? = some (locate .otype n, otype.setWidth 32) := by rw [hdriven h]; rfl
  have hspeed (h : driven) : fields[3]? = some (locate .speed n, speed.setWidth 32) := by rw [hdriven h]; rfl
  have haf (h : mode = s.params.modeAF) : fields[4]? = some (locate .af n, af.setWidth 32) := by
    rw [hdriven (.inr h), if_pos h]; rfl
  have hreg : (locate .af n).reg = afReg := locate_af_reg n
  refine ⟨fun hu => ?start, read 0 1 _ _ rfl rfl, write 0 2 _ _ rfl rfl ?two, read 1 3 _ _ rfl rfl,
    fun hu h => writeLast 1 4 _ _ rfl rfl (by rw [hother h]; rfl) hu,
    fun hu h => write 1 4 _ _ rfl rfl (by rw [hlength h]; split <;> decide) hu,
    fun hu h => read 2 5 _ _ (hotype h) rfl hu,
    fun hu h => write 2 6 _ _ (hotype h) rfl (by rw [hlength h]; split <;> decide) hu,
    fun hu h => read 3 7 _ _ (hspeed h) rfl hu,
    fun hu h hne => writeLast 3 8 _ _ (hspeed h) rfl (by rw [hlength h, if_neg hne]) hu,
    fun hu h => write 3 8 _ _ (hspeed (.inr h)) rfl (by rw [hlength (.inr h), if_pos h]; decide) hu,
    fun hu h => hreg ▸ read 4 9 _ _ (haf h) rfl hu,
    fun hu h => hreg ▸ writeLast 4 10 _ _ (haf h) rfl (by rw [hlength (.inr h), if_pos h]) hu⟩
  case start =>
    have hpass : run = .next (setContext s s.cur (advanced k)) :=
      exec_of_commandMove (.init port pin mode pull otype speed af) s s k _ hk
        (.validated p n (validatePin_valid port pin p n hp hn) (by rw [hu]; rfl))
    rw [hpass, advanced, hu]
    rfl
  case two => simp [fields, initFields]

/-- Settles O20: the four transactions of the field the list names. -/
theorem initSplitStepList : Obligations.InitSplitStepList := by
  intro s k port pin mode pull otype speed af p n f r w sh v hk hsplit hp hn fields run hfield
  have hfields : fields = (initFields s.params mode pull otype speed af n).map fun x =>
      (x.1.reg, x.1.width, x.1.shift, x.2) := by
    simp only [fields, initFields, List.map_append, apply_ite (List.map _), isDriven_iff, isAF_iff, List.map_cons,
      List.map_nil, locate_af_reg]
    rfl
  have hlength : fields.length = (initFields s.params mode pull otype speed af n).length := by
    rw [hfields, List.length_map]
  have hf : (initFields s.params mode pull otype speed af n)[f]? = some (⟨r, w, sh⟩, v) := by
    rw [hfields, List.getElem?_map, Option.map_eq_some_iff] at hfield
    obtain ⟨⟨l, v⟩, hf, ⟨⟩⟩ := hfield
    exact hf
  have row (j : Nat) (x : Txn) (hx : (fieldUpdate .two ⟨r, w, sh⟩ v)[j]? = some x)
      (hu : k.ustep.toNat = 4 * f + j + 1) :
      run = .next (setContext (txnState s k p x) s.cur
        (if j + 1 = 4 ∧ f + 1 = fields.length then completed (txnContext s k p x) .success
         else advanced (txnContext s k p x))) := by
    have h := exec_init_of_field hk hp hn f j ⟨r, w, sh⟩ v x hf (by rw [hsplit]; exact hx) (by rw [hsplit]; exact hu)
    rw [hsplit, ← hlength] at h
    exact h
  refine ⟨row 0 (.load r) rfl, row 1 (.storeCleared ⟨r, w, sh⟩) rfl, row 2 (.load r) rfl, fun hu => ?last⟩
  case last =>
    rw [row 3 (.storeSet ⟨r, w, sh⟩ v) rfl hu]
    simp only [Nat.reduceAdd, true_and]
    rfl

/-- Settles O21: row 2 of the split list clears the two bits of the value read, and the bank is enabled. -/
theorem splitUpdateShowsAZeroField : Obligations.SplitUpdateShowsAZeroField := by
  intro s k port pin mode pull otype speed af p n hk hsplit hp hn hu hen
  obtain ⟨-, hclear, -⟩ := initSplitStepList s k port pin mode pull otype speed af p n 0 .mode 2 (2 * n.val)
    (mode.setWidth 32) hk hsplit hp hn rfl
  refine ⟨_, hclear (by rw [hu]; rfl), ?_⟩
  have hmode : (regWrite s p .mode (clearField k.tmp (fieldMask 2) (2 * n.val))).banks[p].mode =
      clearField k.tmp (fieldMask 2) (2 * n.val) := by
    rw [regWrite_bank_self_enabled s p _ _ hen]
    rfl
  have hbit (b : Nat) (hb : b < 32) := getLsbD_clearField k.tmp 2 (2 * n.val) b (by simp) hb
  rw [setContext_banks, hmode]
  refine ⟨?low, ?high, fun b hlow hhigh => ?others⟩
  case low => rw [hbit _ (by omega), if_pos (by omega)]
  case high => rw [hbit _ (by omega), if_pos (by omega)]
  case others =>
    by_cases hb : b < 32
    · rw [hbit b hb, if_neg (by omega)]
    · rw [BitVec.getLsbD_of_ge _ _ (by omega), BitVec.getLsbD_of_ge _ _ (by omega)]

/-- Settles O17: a rejection at the first step; the fields the row of `INIT.NULL` masks are those the word gives. -/
theorem initNullCompletesWithNull : Obligations.InitNullCompletesWithNull := by
  refine ⟨fun s k hk hu => ?step, fun w hop hdv => ?word, by decide⟩
  case step =>
    rw [exec_eq_commandStep]
    exact commandStep_reject .null _ s k hk hu
  case word =>
    have hzero : w.extractLsb 29 29 = 0#1 := by
      refine BitVec.eq_of_getLsbD_eq fun i hi => ?_
      obtain rfl : i = 0 := by omega
      simpa using hdv
    simp [decodeWord, instrOfCmd, cmdOfWord, hop, hzero]

/-! ## What a step of an `INIT` leaves alone -/

/-- A transaction of a field update writes no register but its field's (40_configuration.md R132, R133). -/
theorem txnState_bank_of_fieldUpdate (s : State) (k : Context) (p q : Fin 8) (split : RmwSplit) (l : Loc) (v : Word)
    (x : Txn) (hx : x ∈ fieldUpdate split l v) :
    (txnState s k p x).banks[q] = s.banks[q] ∨
      p = q ∧ ∃ w, (txnState s k p x).banks[q] = writeBank s.banks[q] l.reg w := by
  have write (w : Word) : (regWrite s p l.reg w).banks[q] = s.banks[q] ∨
      p = q ∧ ∃ w', (regWrite s p l.reg w).banks[q] = writeBank s.banks[q] l.reg w' := by
    by_cases hq : q = p
    · subst hq
      cases hen : s.bankEn[q] with
      | true => exact .inr ⟨rfl, w, regWrite_bank_self_enabled s q l.reg w hen⟩
      | false => exact .inl (by rw [regWrite_disabled s q l.reg w hen])
    · exact .inl (regWrite_bank_other s p q l.reg w hq)
  obtain rfl | rfl | rfl | rfl := mem_fieldUpdate split l v x hx
  · exact .inl (by simp [txnState])
  · exact write _
  · exact write _
  · exact write _

/-- A step of an `INIT` changes at most one register: one of those its mode and pin give, in the bank of its `PORT`
(20_memory.md R71). -/
theorem CommandMove.bank_of_init {s u : State} {k k' : Context} {port pin : BitVec 8} {mode pull : BitVec 2}
    {otype : BitVec 1} {speed : BitVec 2} {af : BitVec 4}
    (move : CommandMove (.init port pin mode pull otype speed af) s k u k') (q : Fin 8) :
    u.banks[q] = s.banks[q] ∨
      port.toNat = q.val ∧ ∃ r w, u.banks[q] = writeBank s.banks[q] r w ∧ InitWrites s.params mode pin.toNat r := by
  have txn (p : Fin 8) (n : Fin 16) (j : Nat) (x : Txn)
      (hv : validate (.init port pin mode pull otype speed af) = .pass p n)
      (hx : (scriptOf s.params n (.init port pin mode pull otype speed af))[j]? = some x) :
      (txnState s k p x).banks[q] = s.banks[q] ∨
        port.toNat = q.val ∧ ∃ r w, (txnState s k p x).banks[q] = writeBank s.banks[q] r w ∧
          InitWrites s.params mode pin.toNat r := by
    obtain ⟨hp, hn⟩ := validatePin_pass port pin p n hv
    have hmem : x ∈ initScript s.params mode pull otype speed af n := List.mem_of_getElem? hx
    rw [initScript_eq_flatMap, List.mem_flatMap] at hmem
    obtain ⟨⟨l, v⟩, hl, hx⟩ := hmem
    refine (txnState_bank_of_fieldUpdate s k p q _ l v x hx).imp_right ?_
    rintro ⟨rfl, w, hw⟩
    exact ⟨hp, l.reg, w, hw, hn ▸ initWrites_of_mem_initFields _ _ _ _ _ _ _ _ hl⟩
  cases move with
  | rejected => exact .inl rfl
  | validated => exact .inl rfl
  | finished p n j x hv hu hx => exact txn p n j x hv hx
  | continued p n j x hv hu hx => exact txn p n j x hv hx

/-- Settles O33: the slot is written by an `RD` only; a bank is as it was or has one register written, and each register
an `INIT` may write is excluded by the hypothesis of its clause. -/
theorem initFrame : Obligations.InitFrame := by
  intro s t port pin mode pull otype speed af h
  obtain ⟨k, u, k', hk, move, rfl⟩ := exec_next _ s t h
  refine ⟨fun k₀ k₁ hk₀ hk₁ => ?slot, fun q => ?bank⟩
  case slot =>
    have hlt := (List.getElem?_eq_some_iff.mp hk).1
    obtain rfl : k = k₀ := Option.some.inj (hk.symm.trans hk₀)
    obtain rfl : k' = k₁ := by simpa [move.ctxs_eq, List.getElem?_set_self hlt] using hk₁
    exact move.rval_eq_or_rd_succeeds.resolve_right fun ⟨⟨_, _, hrd⟩, _⟩ => Instr.noConfusion hrd
  case bank =>
    rw [setContext_banks]
    obtain hsame | ⟨hport, r, w, hwrite, hr⟩ := move.bank_of_init q
    · simp [hsame]
    · rw [hwrite]
      cases r with
      | mode | pull => simp [writeBank, hport]
      | otype | speed =>
        have hdriven : mode = 0b01#2 ∨ mode = s.params.modeAF := (isDriven_iff s.params mode).mp hr
        exact ⟨rfl, absurd hport, fun hout haf => absurd hdriven (not_or.mpr ⟨hout, haf⟩), fun _ => ⟨rfl, rfl⟩,
          fun _ => rfl, fun _ => rfl⟩
      | afl =>
        obtain ⟨halternate, hpin⟩ := hr
        simp [writeBank, hport, (isAF_iff s.params mode).mp halternate, Nat.not_le.mpr hpin]
      | afh =>
        obtain ⟨halternate, hpin⟩ := hr
        simp [writeBank, hport, (isAF_iff s.params mode).mp halternate, hpin]
      | idata | odata | setrst => exact hr.elim

/-! ## A command run alone -/

/-- The bank state and the latches after the transactions of a list, performed one after another on bank `p`; what no
transaction reads, the contexts of the state and the step index, stays as it was. -/
def txnRun (p : Fin 8) (sk : State × Context) (script : List Txn) : State × Context :=
  script.foldl (fun sk x => (txnState sk.1 sk.2 p x, txnContext sk.1 sk.2 p x)) sk

@[simp] theorem txnRun_nil (p : Fin 8) (sk : State × Context) : txnRun p sk [] = sk := rfl

@[simp] theorem txnRun_cons (p : Fin 8) (s : State) (k : Context) (x : Txn) (script : List Txn) :
    txnRun p (s, k) (x :: script) = txnRun p (txnState s k p x, txnContext s k p x) script := rfl

theorem txnRun_append (p : Fin 8) (sk : State × Context) (script script' : List Txn) :
    txnRun p sk (script ++ script') = txnRun p (txnRun p sk script) script' := by
  simp [txnRun]

theorem txnRun_ctxs (p : Fin 8) (s : State) (k : Context) (script : List Txn) :
    (txnRun p (s, k) script).1.ctxs = s.ctxs := by
  induction script generalizing s k with
  | nil => rfl
  | cons x script ih => simp [ih]

theorem txnRun_cmd (p : Fin 8) (s : State) (k : Context) (script : List Txn) :
    (txnRun p (s, k) script).2.cmd = k.cmd := by
  induction script generalizing s k with
  | nil => rfl
  | cons x script ih => simp [ih]

/-- Transactions that take no level leave `rval` alone. -/
theorem txnRun_rval (p : Fin 8) (s : State) (k : Context) (script : List Txn) (h : ∀ m, Txn.loadLevel m ∉ script) :
    (txnRun p (s, k) script).2.rval = k.rval := by
  induction script generalizing s k with
  | nil => rfl
  | cons x script ih =>
    rw [txnRun_cons, ih _ _ fun m hm => h m (List.mem_cons_of_mem x hm)]
    exact txnContext_rval s k p x fun m hx => h m (hx ▸ List.mem_cons_self)

theorem setContext_setContext (s : State) (c : Nat) (k k' : Context) :
    setContext (setContext s c k) c k' = setContext s c k' := by
  simp [setContext]

theorem afterRead_setContext (s : State) (c : Nat) (k : Context) (p : Fin 8) (r : Reg) :
    afterRead (setContext s c k) p r = setContext (afterRead s p r) c k := by
  rw [afterRead, afterRead, apply_ite (setContext · c k)]
  rfl

theorem regWrite_setContext (s : State) (c : Nat) (k : Context) (p : Fin 8) (r : Reg) (v : Word) :
    regWrite (setContext s c k) p r v = setContext (regWrite s p r v) c k := by
  rw [regWrite, regWrite, apply_ite (setContext · c k)]
  rfl

/-- A transaction takes no notice of the contexts of the state and of the step index. -/
theorem txnState_setContext (s : State) (c : Nat) (k k' : Context) (u : BitVec 5) (p : Fin 8) (x : Txn) :
    txnState (setContext s c k') { k with ustep := u } p x = setContext (txnState s k p x) c k' := by
  cases x <;> simp only [txnState, afterRead_setContext, regWrite_setContext]

theorem txnContext_setContext (s : State) (c : Nat) (k k' : Context) (u : BitVec 5) (p : Fin 8) (x : Txn) :
    txnContext (setContext s c k') { k with ustep := u } p x = { txnContext s k p x with ustep := u } := by
  cases x <;> rfl

theorem txnRun_setContext (p : Fin 8) (s : State) (c : Nat) (k k' : Context) (u : BitVec 5) (script : List Txn) :
    txnRun p (setContext s c k', { k with ustep := u }) script =
      (setContext (txnRun p (s, k) script).1 c k', { (txnRun p (s, k) script).2 with ustep := u }) := by
  induction script generalizing s k with
  | nil => rfl
  | cons x script ih => rw [txnRun_cons, txnState_setContext, txnContext_setContext, ih, txnRun_cons]

/-- The run after a context has gone on to its next step. -/
theorem txnRun_advanced (p : Fin 8) (s : State) (c : Nat) (k : Context) (script : List Txn) :
    txnRun p (setContext s c (advanced k), advanced k) script =
      (setContext (txnRun p (s, k) script).1 c (advanced k),
        { (txnRun p (s, k) script).2 with ustep := k.ustep + 1 }) :=
  txnRun_setContext p s c k (advanced k) (k.ustep + 1) script

theorem execFor_succ (m : Nat) (i : Instr) (s t : State) (h : exec i s = .next t) :
    execFor (m + 1) i s = execFor m i t := by
  simp only [execFor, h]

/-- From the transaction after `before` on, the steps left to a valid command perform the rest of its list and complete
it. -/
theorem execFor_rest (i : Instr) (p : Fin 8) (n : Fin 16) (hv : validate i = .pass p n) (before rest : List Txn)
    (x : Txn) (s : State) (k : Context) (hk : s.ctxs[s.cur]? = some k)
    (hscript : scriptOf s.params n i = before ++ x :: rest) (hu : k.ustep.toNat = before.length + 1) :
    ∃ u, execFor (rest.length + 1) i s =
      .next (setContext (txnRun p (s, k) (x :: rest)).1 s.cur
        (completed { (txnRun p (s, k) (x :: rest)).2 with ustep := u } .success)) := by
  induction rest generalizing before x s k with
  | nil =>
    have hexec := exec_of_commandMove i s _ k _ hk
      (.finished p n before.length x hv hu (by simp [hscript]) (by simp [hscript]))
    exact ⟨(txnContext s k p x).ustep, execFor_succ 0 i s _ hexec⟩
  | cons y rest ih =>
    have hexec := exec_of_commandMove i s _ k _ hk
      (.continued p n before.length x hv hu (by simp [hscript]) (by simp [hscript]))
    let t := setContext (txnState s k p x) s.cur (advanced (txnContext s k p x))
    have ht : t.ctxs[t.cur]? = some (advanced (txnContext s k p x)) := by
      simp [t, List.getElem?_set_self (List.getElem?_eq_some_iff.mp hk).1]
    have hindex : (advanced (txnContext s k p x)).ustep.toNat = (before ++ [x]).length + 1 := by
      have hbound := scriptOf_length_le s.params n i
      simp only [hscript, List.length_append, List.length_cons] at hbound
      rw [advanced_ustep, txnContext_ustep, BitVec.toNat_add, hu, List.length_append, List.length_singleton]
      exact Nat.mod_eq_of_lt (by simp; omega)
    obtain ⟨u, hrest⟩ := ih (before ++ [x]) y t _ ht (by simp [t, hscript]) hindex
    refine ⟨u, (execFor_succ _ i s _ hexec).trans (hrest.trans ?_)⟩
    rw [txnRun_advanced, setContext_cur, txnState_cur, setContext_setContext]
    rfl

/-- A valid command run alone performs its transactions and completes with success (40_configuration.md R140). -/
theorem execFor_of_pass (i : Instr) (s : State) (k : Context) (p : Fin 8) (n : Fin 16) (hstart : atStart s k)
    (hv : validate i = .pass p n) :
    ∃ u, execFor (stepCount s.params i) i s =
      .next (setContext (txnRun p (s, k) (scriptOf s.params n i)).1 s.cur
        (completed { (txnRun p (s, k) (scriptOf s.params n i)).2 with ustep := u } .success)) := by
  obtain ⟨hk, -, hu⟩ := hstart
  have hne : i ≠ .initNull := fun h => by subst h; cases hv
  obtain ⟨x, rest, hscript⟩ := List.exists_cons_of_length_pos (scriptOf_pos s.params n i hne)
  have hexec := exec_of_commandMove i s s k _ hk (.validated p n hv (by rw [hu]; rfl))
  have ht : (setContext s s.cur (advanced k)).ctxs[s.cur]? = some (advanced k) := by
    simp [List.getElem?_set_self (List.getElem?_eq_some_iff.mp hk).1]
  obtain ⟨u, hrest⟩ := execFor_rest i p n hv [] rest x (setContext s s.cur (advanced k)) (advanced k) ht hscript
    (by rw [advanced_ustep, hu]; rfl)
  have hcount : stepCount s.params i = rest.length + 1 + 1 := by
    rw [stepCount_pass _ i p n hv, hscript, List.length_cons]; omega
  refine ⟨u, ?_⟩
  rw [hcount, execFor_succ _ i s _ hexec, hrest, txnRun_advanced, setContext_cur, setContext_setContext, hscript]

/-- Settles O31: a rejected command completes at its one step, a valid one performs its list of at most 20. -/
theorem everyCommandCompletes : Obligations.EveryCommandCompletes := by
  intro s k i hstart
  cases hv : validate i with
  | reject st =>
    obtain ⟨hk, -, hu⟩ := hstart
    have hexec := exec_of_commandMove i s s k _ hk (.rejected st hv (by rw [hu]; rfl))
    rw [stepCount_reject s.params i st hv]
    refine ⟨by omega, _, completed k st, execFor_succ 0 i s _ hexec, rfl, rfl, rfl, rfl, ?_, nofun⟩
    rintro _ ⟨⟩
    rfl
  | pass p n =>
    have hcount := stepCount_pass s.params i p n hv
    have hbound := scriptOf_length_le s.params n i
    obtain ⟨u, hrun⟩ := execFor_of_pass i s k p n hstart hv
    exact ⟨by omega, _, completed _ .success, hrun, congrArg (List.set · s.cur _) (txnRun_ctxs p s k _), rfl, rfl,
      txnRun_cmd p s k _, nofun, fun _ _ _ => rfl⟩

/-! ## The net effect of an `INIT` -/

/-- The word a read of a stored register returns (20_memory.md R77 to R79); `IDATA` and `SETRST` store nothing. -/
def storedValue (b : Bank) : Reg → Word
  | .mode   => b.mode
  | .otype  => b.otype.setWidth 32
  | .speed  => b.speed
  | .pull   => b.pull
  | .idata  => 0
  | .odata  => b.odata.setWidth 32
  | .setrst => 0
  | .afl    => b.afl
  | .afh    => b.afh

theorem regRead_eq_storedValue (s : State) (p : Fin 8) (r : Reg) (hen : s.bankEn[p] = true) (hr : r ≠ .idata) :
    regRead s p r = storedValue s.banks[p] r := by
  rw [regRead_enabled s p r hen]
  cases r with
  | idata => exact absurd rfl hr
  | _ => rfl

/-- A bank after the update of one field, its register read, changed and written back (40_configuration.md R132). -/
def updateBank (b : Bank) (x : Loc × Word) : Bank :=
  writeBank b x.1.reg (updateField (storedValue b x.1.reg) x.1.width x.1.shift x.2)

/-- The upper half that `OTYPE` and `ODATA` discard does not come back into the lower one by a field update. -/
theorem setWidth_setField_setWidth (r v : Word) (sh : Nat) :
    (setField ((r.setWidth 16).setWidth 32) v sh).setWidth 16 = (setField r v sh).setWidth 16 := by
  simp [setField, BitVec.setWidth_or]

/-- Clearing a field and then setting it, with a write and a read between, writes the same as one update
(40_configuration.md R133). -/
theorem writeBank_setField_storedValue (b : Bank) (r : Reg) (c v : Word) (sh : Nat) (hidata : r ≠ .idata)
    (hsetrst : r ≠ .setrst) :
    writeBank (writeBank b r c) r (setField (storedValue (writeBank b r c) r) v sh) =
      writeBank b r (setField c v sh) := by
  cases r with
  | idata => exact absurd rfl hidata
  | setrst => exact absurd rfl hsetrst
  | otype | odata => simp only [writeBank, storedValue, setWidth_setField_setWidth]
  | _ => rfl

/-- A field update run alone on an enabled bank updates the field, with either value of `RMW_SPLIT`. -/
theorem txnRun_fieldUpdate (s : State) (k : Context) (p : Fin 8) (split : RmwSplit) (x : Loc × Word)
    (hen : s.bankEn[p] = true) (hidata : x.1.reg ≠ .idata) (hsetrst : x.1.reg ≠ .setrst) :
    (txnRun p (s, k) (fieldUpdate split x.1 x.2)).1 =
      { s with banks := s.banks.set p (updateBank s.banks[p] x) } := by
  have read (t : State) (ht : t.bankEn[p] = true) := regRead_eq_storedValue t p x.1.reg ht hidata
  have stay (t : State) (ht : t.bankEn[p] = true) := afterRead_enabled t p x.1.reg ht hidata
  cases split with
  | one =>
    simp only [fieldUpdate, txnRun_cons, txnRun_nil, txnState, txnContext, stay s hen, read s hen]
    exact regWrite_enabled s p _ _ hen
  | two =>
    let cleared := clearField (storedValue s.banks[p] x.1.reg) (fieldMask x.1.width) x.1.shift
    have hen' : (regWrite s p x.1.reg cleared).bankEn[p] = true := by rw [regWrite_bankEn]; exact hen
    simp only [fieldUpdate, txnRun_cons, txnRun_nil, txnState, txnContext, stay s hen, read s hen, stay _ hen',
      read _ hen', cleared, regWrite_enabled _ p _ _ hen']
    rw [regWrite_bank_self_enabled s p _ _ hen, writeBank_setField_storedValue _ _ _ _ _ hidata hsetrst,
      regWrite_enabled s p _ _ hen]
    simp [updateBank, updateField]

/-- Field updates run alone on an enabled bank update its fields one after another. -/
theorem txnRun_fieldUpdates (s : State) (k : Context) (p : Fin 8) (split : RmwSplit) (fields : List (Loc × Word))
    (hen : s.bankEn[p] = true) (hreg : ∀ x ∈ fields, x.1.reg ≠ .idata ∧ x.1.reg ≠ .setrst) :
    (txnRun p (s, k) (fields.flatMap fun x => fieldUpdate split x.1 x.2)).1 =
      { s with banks := s.banks.set p (fields.foldl updateBank s.banks[p]) } := by
  induction fields generalizing s k with
  | nil => simp
  | cons x fields ih =>
    obtain ⟨⟨hidata, hsetrst⟩, hreg⟩ := List.forall_mem_cons.mp hreg
    have hfirst : txnRun p (s, k) (fieldUpdate split x.1 x.2) = (_, (txnRun p (s, k) (fieldUpdate split x.1 x.2)).2) :=
      Prod.ext (txnRun_fieldUpdate s k p split x hen hidata hsetrst) rfl
    rw [List.flatMap_cons, txnRun_append, hfirst]
    exact (ih { s with banks := s.banks.set p (updateBank s.banks[p] x) } _ hen hreg).trans (by simp)

section InitNet

variable (P : Params) (b : Bank) (mode pull : BitVec 2) (otype : BitVec 1) (speed : BitVec 2) (af : BitVec 4)
  (n : Fin 16) (v : Word)

theorem updateBank_mode :
    updateBank b (locate .mode n, v) = { b with mode := updateField b.mode 2 (2 * n.val) v } := rfl

theorem updateBank_pull :
    updateBank b (locate .pull n, v) = { b with pull := updateField b.pull 2 (2 * n.val) v } := rfl

theorem updateBank_otype :
    updateBank b (locate .otype n, v) =
      { b with otype := (updateField (b.otype.setWidth 32) 1 n.val v).setWidth 16 } := rfl

theorem updateBank_speed :
    updateBank b (locate .speed n, v) = { b with speed := updateField b.speed 2 (2 * n.val) v } := rfl

/-- The update of the alternate function is in `AFL` or `AFH`, by the side of pin 8 (10_state.md R42). -/
theorem updateBank_af :
    updateBank b (locate .af n, v) =
      { b with
        afl := if n.val < 8 then updateField b.afl 4 (4 * n.val) v else b.afl
        afh := if 8 ≤ n.val then updateField b.afh 4 (4 * (n.val - 8)) v else b.afh } := by
  by_cases hn : n.val < 8
  · rw [locate_af_of_lt n hn, if_pos hn, if_neg (Nat.not_le.mpr hn)]
    rfl
  · rw [locate_af_of_ge n (Nat.not_lt.mp hn), if_neg hn, if_pos (Nat.not_lt.mp hn)]
    rfl

/-- The fields of an `INIT` updated one after another give the bank of 40_configuration.md R144. -/
theorem foldl_updateBank_initFields :
    (initFields P mode pull otype speed af n).foldl updateBank b = initNet P b mode pull otype speed af n := by
  simp only [initFields, List.foldl_append, List.foldl_cons, List.foldl_nil, updateBank_mode, updateBank_pull]
  cases hdriven : isDriven P mode with
  | false =>
    have halternate : isAF P mode = false :=
      Bool.eq_false_iff.mpr fun h => by simp [isDriven_of_isAF P mode h] at hdriven
    simp [initNet, hdriven, halternate]
  | true =>
    cases halternate : isAF P mode <;>
      simp [initNet, hdriven, halternate, updateBank_otype, updateBank_speed, updateBank_af]

/-- A code of `m` bits fits a field of width `m`. -/
theorem toNat_setWidth_lt {m : Nat} (hm : m ≤ 32) (c : BitVec m) : (c.setWidth 32).toNat < 2 ^ m := by
  rw [BitVec.toNat_setWidth_of_le hm]
  exact c.isLt

/-- Updating a field of `OTYPE` twice with one value is updating it once, though its upper half is discarded between. -/
theorem setWidth_updateField_twice (o : Half) (w sh : Nat) (hw : w = 1 ∨ w = 2 ∨ w = 4) (hv : v.toNat < 2 ^ w) :
    (updateField (((updateField (o.setWidth 32) w sh v).setWidth 16).setWidth 32) w sh v).setWidth 16 =
      (updateField (o.setWidth 32) w sh v).setWidth 16 := by
  have htruncated (r : Word) :
      (updateField ((r.setWidth 16).setWidth 32) w sh v).setWidth 16 = (updateField r w sh v).setWidth 16 := by
    simp [updateField, setField, clearField, BitVec.setWidth_or, BitVec.setWidth_and]
  rw [htruncated, updateField_updateField_same _ v v w sh hw hv hv]

/-- What is idempotent is so under a condition. -/
theorem ite_twice {α : Type} (c : Prop) [Decidable c] (f : α → α) (a : α) (h : f (f a) = f a) :
    (if c then f (if c then f a else a) else if c then f a else a) = if c then f a else a := by
  by_cases hc : c
  · simp only [if_pos hc, h]
  · simp only [if_neg hc]

/-- The same `INIT` again changes nothing in the bank (40_configuration.md R144). -/
theorem initNet_initNet :
    initNet P (initNet P b mode pull otype speed af n) mode pull otype speed af n =
      initNet P b mode pull otype speed af n := by
  have twice2 (r : Word) (c : BitVec 2) (sh : Nat) :=
    have hc := toNat_setWidth_lt (by decide) c
    updateField_updateField_same r _ _ 2 sh (by simp) hc hc
  have twice4 (r : Word) (sh : Nat) :=
    have hc := toNat_setWidth_lt (by decide) af
    updateField_updateField_same r _ _ 4 sh (by simp) hc hc
  have twice1 := setWidth_updateField_twice (otype.setWidth 32) b.otype 1 n.val (by simp)
    (toNat_setWidth_lt (by decide) otype)
  refine (Bank.mk.injEq ..).mpr ⟨twice2 b.mode mode _, ?otype, ?speed, twice2 b.pull pull _, rfl, ?afl, ?afh⟩
  case otype =>
    exact ite_twice _ (fun o : Half => (updateField (o.setWidth 32) 1 n.val (otype.setWidth 32)).setWidth 16) _ twice1
  case speed => exact ite_twice _ (fun r => updateField r 2 (2 * n.val) (speed.setWidth 32)) _ (twice2 b.speed speed _)
  case afl => exact ite_twice _ (fun r => updateField r 4 (4 * n.val) (af.setWidth 32)) _ (twice4 b.afl _)
  case afh => exact ite_twice _ (fun r => updateField r 4 (4 * (n.val - 8)) (af.setWidth 32)) _ (twice4 b.afh _)

end InitNet

/-- A valid `INIT` run alone on an enabled bank puts its net bank there and leaves the rest of the state
(40_configuration.md R130, R144). -/
theorem execFor_init (s : State) (k : Context) (port pin : BitVec 8) (mode pull : BitVec 2) (otype : BitVec 1)
    (speed : BitVec 2) (af : BitVec 4) (p : Fin 8) (n : Fin 16) (hstart : atStart s k) (hp : port.toNat = p.val)
    (hn : pin.toNat = n.val) (hen : s.bankEn[p] = true) :
    ∃ k', execFor (stepCount s.params (.init port pin mode pull otype speed af))
        (.init port pin mode pull otype speed af) s =
        .next (setContext { s with banks := s.banks.set p (initNet s.params s.banks[p] mode pull otype speed af n) }
          s.cur (completed k' .success)) ∧
      k'.rval = k.rval ∧ k'.cmd = k.cmd := by
  obtain ⟨u, hrun⟩ := execFor_of_pass (.init port pin mode pull otype speed af) s k p n hstart
    (validatePin_valid port pin p n hp hn)
  have hnolevel (m : Nat) : Txn.loadLevel m ∉ scriptOf s.params n (.init port pin mode pull otype speed af) := by
    intro h
    obtain ⟨_, _, hrd⟩ := eq_rd_of_loadLevel_mem _ _ _ _ h
    cases hrd
  have hreg : ∀ x ∈ initFields s.params mode pull otype speed af n, x.1.reg ≠ .idata ∧ x.1.reg ≠ .setrst := by
    intro x hx
    have hwrites := initWrites_of_mem_initFields _ _ _ _ _ _ _ x hx
    constructor <;> intro h <;> rw [h] at hwrites <;> exact hwrites
  have hstate : (txnRun p (s, k) (scriptOf s.params n (.init port pin mode pull otype speed af))).1 =
      { s with banks := s.banks.set p (initNet s.params s.banks[p] mode pull otype speed af n) } := by
    rw [← foldl_updateBank_initFields, ← txnRun_fieldUpdates s k p s.params.rmwSplit _ hen hreg,
      ← initScript_eq_flatMap, scriptOf]
  rw [hstate] at hrun
  exact ⟨_, hrun, txnRun_rval p s k _ hnolevel, txnRun_cmd p s k _⟩

/-- Settles O30: the run of the `INIT` by `execFor_init`, a second time from the state after it, where the net bank is
its own net bank. -/
theorem initNetEffect : Obligations.InitNetEffect := by
  intro s k port pin mode pull otype speed af w p n hstart hp hn hen i
  obtain ⟨k', hrun, hrval, hcmd⟩ := execFor_init s k port pin mode pull otype speed af p n hstart hp hn hen
  obtain ⟨hk, -, -⟩ := hstart
  have hlt : s.cur < s.ctxs.length := (List.getElem?_eq_some_iff.mp hk).1
  let t := setContext { s with banks := s.banks.set p (initNet s.params s.banks[p] mode pull otype speed af n) } s.cur
    (completed k' .success)
  have ht : t.ctxs[t.cur]? = some (completed k' .success) := List.getElem?_set_self hlt
  have hissue : issueCommand t t.cur w = .next (setContext t t.cur (issued (completed k' .success) w)) := by
    simp [issueCommand, ht]
  have hstart' : atStart (setContext t t.cur (issued (completed k' .success) w)) (issued (completed k' .success) w) :=
    ⟨List.getElem?_set_self (List.getElem?_eq_some_iff.mp ht).1, rfl, rfl⟩
  obtain ⟨k'', hagain, -, -⟩ := execFor_init _ _ port pin mode pull otype speed af p n hstart' hp hn hen
  refine ⟨t, completed k' .success, _, _, hrun, rfl, rfl, rfl, rfl, rfl, hrval, hcmd, rfl, rfl, rfl, rfl, rfl, rfl,
    hissue, hagain, ?same⟩
  case same => simp [t, initNet_initNet]

end Sys2Proof.Machine

/-! The statements of 41_pin_io.md. A row of a step list is a move of the command (`exec_of_commandMove`); what a
command does alone is its rows one after another (`execFor_set`, `execFor_tgl`, `execFor_rd`); what its step leaves
alone is read off the one transaction a step can be (`CommandMove.stays_or_txn`). -/

namespace Sys2Proof.Machine

/-! ## Validation -/

/-- Valid identifiers and a valid level pass the checks of `SET` (41_pin_io.md R152). -/
theorem validateSet_valid (port pin : BitVec 8) (level : BitVec 2) (p : Fin 8) (n : Fin 16) (hp : port.toNat = p.val)
    (hn : pin.toNat = n.val) (hl : level.toNat < 2) : validateSet port pin level = .pass p n := by
  rw [validateSet, if_neg (Nat.not_le.mpr hl), validatePin_valid port pin p n hp hn]

/-- An invalid identifier or an invalid level fails the checks of `SET` (41_pin_io.md R152). -/
theorem validateSet_invalid (port pin : BitVec 8) (level : BitVec 2)
    (h : 8 ≤ port.toNat ∨ 16 ≤ pin.toNat ∨ 2 ≤ level.toNat) : validateSet port pin level = .reject .fail := by
  by_cases hl : 2 ≤ level.toNat
  · exact if_pos hl
  · rw [validateSet, if_neg hl, validatePin_invalid port pin (by tauto)]

/-- The checks of `SET` pass exactly the identifiers they name, with a valid level. -/
theorem validateSet_pass (port pin : BitVec 8) (level : BitVec 2) (p : Fin 8) (n : Fin 16)
    (h : validateSet port pin level = .pass p n) :
    port.toNat = p.val ∧ pin.toNat = n.val ∧ level.toNat < 2 := by
  unfold validateSet at h
  split at h
  · cases h
  · next hl =>
    obtain ⟨hp, hn⟩ := validatePin_pass port pin p n h
    exact ⟨hp, hn, Nat.not_le.mp hl⟩

/-! ## The rows of the step lists -/

section Rows

variable {i : Instr} {s : State} {k : Context} {port pin : BitVec 8} {level : BitVec 2} {p : Fin 8} {n : Fin 16}

/-- Row 0 of a command that validation rejects (60_exceptions.md R173). -/
theorem exec_start_reject {st : Status} (hk : s.ctxs[s.cur]? = some k) (hu : k.ustep = 0)
    (hv : validate i = .reject st) : exec i s = .next (setContext s s.cur (completed k st)) :=
  exec_of_commandMove i s s k _ hk (.rejected st hv (by rw [hu]; rfl))

/-- Row 0 of a command that validation passes (60_exceptions.md R173). -/
theorem exec_start_pass (hk : s.ctxs[s.cur]? = some k) (hu : k.ustep = 0) (hv : validate i = .pass p n) :
    exec i s = .next (setContext s s.cur { k with ustep := 1 }) := by
  have h := exec_of_commandMove i s s k _ hk (.validated p n hv (by rw [hu]; rfl))
  rw [advanced, hu] at h
  exact h

/-- Row 1 of `SET` (41_pin_io.md R151). -/
theorem exec_set_write (hk : s.ctxs[s.cur]? = some k) (hp : port.toNat = p.val) (hn : pin.toNat = n.val)
    (hl : level.toNat < 2) (hu : k.ustep = 1) :
    exec (.set port pin level) s =
      .next (setContext (regWrite s p .setrst (setWord level n)) s.cur (completed k .success)) :=
  exec_of_commandMove _ s _ k _ hk
    (.finished p n 0 (.store .setrst (setWord level n)) (validateSet_valid port pin level p n hp hn hl)
      (by rw [hu]; rfl) rfl rfl)

/-- Row 1 of `TGL` (41_pin_io.md R155). -/
theorem exec_tgl_read (hk : s.ctxs[s.cur]? = some k) (hp : port.toNat = p.val) (hn : pin.toNat = n.val)
    (hu : k.ustep = 1) :
    exec (.tgl port pin) s =
      .next (setContext (afterRead s p .odata) s.cur { k with tmp := regRead s p .odata, ustep := 2 }) := by
  have h := exec_of_commandMove (.tgl port pin) s _ k _ hk
    (.continued p n 0 (.load .odata) (validatePin_valid port pin p n hp hn) (by rw [hu]; rfl) rfl
      (by simp [scriptOf, tglScript]))
  rw [advanced, txnContext_ustep, hu] at h
  exact h

/-- Row 2 of `TGL` (41_pin_io.md R155). -/
theorem exec_tgl_write (hk : s.ctxs[s.cur]? = some k) (hp : port.toNat = p.val) (hn : pin.toNat = n.val)
    (hu : k.ustep = 2) :
    exec (.tgl port pin) s =
      .next (setContext (regWrite s p .odata (k.tmp ^^^ (1#32 <<< n.val))) s.cur (completed k .success)) :=
  exec_of_commandMove _ s _ k _ hk
    (.finished p n 1 (.storeFlipped .odata n.val) (validatePin_valid port pin p n hp hn) (by rw [hu]; rfl) rfl rfl)

/-- Row 1 of `RD` (41_pin_io.md R159). -/
theorem exec_rd_read (hk : s.ctxs[s.cur]? = some k) (hp : port.toNat = p.val) (hn : pin.toNat = n.val)
    (hu : k.ustep = 1) :
    exec (.rd port pin) s =
      .next (setContext (afterRead s p .idata) s.cur
        (completed { k with tmp := regRead s p .idata, rval := BitVec.ofBool (levelRead s p n.val) } .success)) :=
  exec_of_commandMove _ s _ k _ hk
    (.finished p n 0 (.loadLevel n.val) (validatePin_valid port pin p n hp hn) (by rw [hu]; rfl) rfl rfl)

end Rows

/-- The level an `RD` takes is the spec's expression over the word read (41_pin_io.md R159). -/
theorem ofBool_levelRead (s : State) (p : Fin 8) (n : Nat) :
    BitVec.ofBool (levelRead s p n) = ((regRead s p .idata >>> n) &&& 1#32).setWidth 1 := by
  rw [levelRead_eq_bit, ushiftRight_and_one]
  cases (regRead s p .idata).getLsbD n <;> rfl

/-- The place of the one bit a `SET` writes: in the set half for High, in the reset half for Low (41_pin_io.md R151). -/
def setBit (level : BitVec 2) (n : Fin 16) : Nat := if level = Config.levelHigh then n.val else n.val + 16

theorem setBit_lt (level : BitVec 2) (n : Fin 16) : setBit level n < 32 := by
  unfold setBit
  split <;> omega

theorem getLsbD_setWord (level : BitVec 2) (n : Fin 16) (i : Nat) :
    (setWord level n).getLsbD i = decide (setBit level n = i) := by
  have hword : setWord level n = BitVec.twoPow 32 (setBit level n) := by
    rw [BitVec.twoPow_eq, setBit, setWord]
    split <;> rfl
  rw [hword, BitVec.getLsbD_twoPow, decide_eq_true (setBit_lt level n), Bool.true_and]

/-- Settles O22: the rows as moves; the word written by the place of its bit. -/
theorem setStepList : Obligations.SetStepList := by
  refine ⟨fun s k port pin level hk hu => ⟨fun hinvalid => ?rejected, fun hp hn hl => ?passed⟩,
    fun s k port pin level p n hk hp hn hl hu => exec_set_write hk hp hn hl hu, fun level n => ?oneBit⟩
  case rejected => exact exec_start_reject hk hu (validateSet_invalid port pin level hinvalid)
  case passed => exact exec_start_pass hk hu (validateSet_valid port pin level ⟨_, hp⟩ ⟨_, hn⟩ rfl rfl hl)
  case oneBit =>
    refine ⟨setWord level n, setBit level n, rfl, setBit_lt level n, fun i => ?_⟩
    rw [getLsbD_setWord, decide_eq_true_eq, eq_comm]

/-- Settles O23: the rows as moves. -/
theorem tglStepList : Obligations.TglStepList := by
  refine ⟨fun s k port pin hk hu => ⟨fun hinvalid => ?rejected, fun hp hn => ?passed⟩,
    fun s k port pin p n hk hp hn => ⟨exec_tgl_read hk hp hn, exec_tgl_write hk hp hn⟩, fun _ => rfl⟩
  case rejected => exact exec_start_reject hk hu (validatePin_invalid port pin hinvalid)
  case passed => exact exec_start_pass hk hu (validatePin_valid port pin ⟨_, hp⟩ ⟨_, hn⟩ rfl rfl)

/-- Settles O24: the rows as moves; the level taken is the spec's expression. -/
theorem rdStepList : Obligations.RdStepList := by
  refine ⟨fun s k port pin hk hu => ⟨fun hinvalid => ?rejected, fun hp hn => ?passed⟩,
    fun s k port pin p n hk hp hn hu => ?read, fun _ => rfl⟩
  case rejected => exact exec_start_reject hk hu (validatePin_invalid port pin hinvalid)
  case passed => exact exec_start_pass hk hu (validatePin_valid port pin ⟨_, hp⟩ ⟨_, hn⟩ rfl rfl)
  case read =>
    rw [exec_rd_read hk hp hn hu, ofBool_levelRead]
    rfl

/-! ## A command run alone -/

/-- The executing context after it has been replaced. -/
theorem setContext_getElem?_cur {s : State} {k : Context} (hk : s.ctxs[s.cur]? = some k) (k' : Context) :
    (setContext s s.cur k').ctxs[s.cur]? = some k' :=
  List.getElem?_set_self (List.getElem?_eq_some_iff.mp hk).1

section Alone

variable {s : State} {k : Context} {port pin : BitVec 8} {level : BitVec 2} {p : Fin 8} {n : Fin 16}

/-- A valid `SET` run alone on an enabled bank writes its word to `SETRST` (41_pin_io.md R150). -/
theorem execFor_set (hstart : atStart s k) (hp : port.toNat = p.val) (hn : pin.toNat = n.val) (hl : level.toNat < 2)
    (hen : s.bankEn[p] = true) :
    execFor 2 (.set port pin level) s =
      .next (setContext
        { s with banks := s.banks.set p { s.banks[p] with odata := setReset s.banks[p].odata (setWord level n) } }
        s.cur (completed { k with ustep := 1 } .success)) := by
  obtain ⟨hk, -, hu⟩ := hstart
  have start := exec_start_pass (i := .set port pin level) hk hu (validateSet_valid port pin level p n hp hn hl)
  have write := exec_set_write (setContext_getElem?_cur hk { k with ustep := 1 }) hp hn hl rfl
  rw [regWrite_setContext, setContext_cur, setContext_setContext, regWrite_enabled s p _ _ hen] at write
  exact (execFor_succ 1 _ _ _ start).trans (execFor_succ 0 _ _ _ write)

/-- A valid `TGL` run alone on an enabled bank writes the flipped `ODATA` back (41_pin_io.md R154). -/
theorem execFor_tgl (hstart : atStart s k) (hp : port.toNat = p.val) (hn : pin.toNat = n.val)
    (hen : s.bankEn[p] = true) :
    execFor 3 (.tgl port pin) s =
      .next (setContext
        { s with banks := s.banks.set p { s.banks[p] with
            odata := (s.banks[p].odata.setWidth 32 ^^^ (1#32 <<< n.val)).setWidth 16 } }
        s.cur (completed { k with tmp := s.banks[p].odata.setWidth 32, ustep := 2 } .success)) := by
  obtain ⟨hk, -, hu⟩ := hstart
  have start := exec_start_pass (i := .tgl port pin) hk hu (validatePin_valid port pin p n hp hn)
  have read := exec_tgl_read (setContext_getElem?_cur hk { k with ustep := 1 }) hp hn rfl
  rw [afterRead_setContext, afterRead_enabled s p .odata hen (by decide), setContext_cur, setContext_setContext,
    regRead_enabled (setContext ..) p .odata hen] at read
  have write := exec_tgl_write
    (setContext_getElem?_cur hk { k with tmp := s.banks[p].odata.setWidth 32, ustep := 2 }) hp hn rfl
  rw [regWrite_setContext, setContext_cur, setContext_setContext, regWrite_enabled s p _ _ hen] at write
  exact ((execFor_succ 2 _ _ _ start).trans (execFor_succ 1 _ _ _ read)).trans (execFor_succ 0 _ _ _ write)

/-- A valid `RD` run alone performs the read of `IDATA` and takes its level (41_pin_io.md R158). -/
theorem execFor_rd (hstart : atStart s k) (hp : port.toNat = p.val) (hn : pin.toNat = n.val) :
    execFor 2 (.rd port pin) s =
      .next (setContext (afterRead s p .idata) s.cur
        (completed { k with tmp := regRead s p .idata, rval := BitVec.ofBool (levelRead s p n.val), ustep := 1 }
          .success)) := by
  obtain ⟨hk, -, hu⟩ := hstart
  have start := exec_start_pass (i := .rd port pin) hk hu (validatePin_valid port pin p n hp hn)
  have read := exec_rd_read (setContext_getElem?_cur hk { k with ustep := 1 }) hp hn rfl
  rw [afterRead_setContext, setContext_cur, setContext_setContext] at read
  exact (execFor_succ 1 _ _ _ start).trans (execFor_succ 0 _ _ _ read)

end Alone

/-- A command run alone stays with its context (the model's own, log 7). -/
theorem execFor_cur (m : Nat) (i : Instr) (s t : State) (h : execFor m i s = .next t) : t.cur = s.cur := by
  induction m generalizing s with
  | zero =>
    cases h
    rfl
  | succ m ih =>
    cases hexec : exec i s with
    | next s' =>
      obtain ⟨k, u, k', -, move, rfl⟩ := exec_next i s s' hexec
      rw [execFor_succ m i s _ hexec] at h
      exact (ih _ h).trans move.cur_eq
    | fault r => simp [execFor, hexec] at h
    | refused r => simp [execFor, hexec] at h

/-- Once its command has completed, a context takes the next issue, which puts it at a start again and changes no bank
(10_state.md R56). -/
theorem issueCommand_after_run {m : Nat} {i : Instr} {s t : State} {k k' : Context} (w : Word)
    (hk : s.ctxs[s.cur]? = some k) (hrun : execFor m i s = .next t) (hctxs : t.ctxs = s.ctxs.set s.cur k')
    (hidle : k'.busy = false) :
    ∃ t', issueCommand t t.cur w = .next t' ∧ atStart t' (issued k' w) ∧ t'.banks = t.banks ∧ t'.bankEn = t.bankEn ∧
      t'.cur = s.cur := by
  have hcur := execFor_cur m i s t hrun
  have ht : t.ctxs[t.cur]? = some k' := by
    rw [hctxs, hcur]
    exact setContext_getElem?_cur hk k'
  exact ⟨_, by simp [issueCommand, ht, hidle], ⟨setContext_getElem?_cur ht _, rfl, rfl⟩, rfl, rfl, hcur⟩

/-- `ODATA` after a `SET` of a valid level: the pin's bit is the level, the others stay (41_pin_io.md R150). -/
theorem getLsbD_setReset_setWord (o : Half) (level : BitVec 2) (n : Fin 16) (m : Nat) (hl : level.toNat < 2) :
    (setReset o (setWord level n)).getLsbD m = if m = n.val then level.getLsbD 0 else o.getLsbD m := by
  have hlevel : level.getLsbD 0 = decide (level = Config.levelHigh) := by revert level; decide
  have hn := n.isLt
  rw [setReset_getLsbD, getLsbD_setWord, getLsbD_setWord, setBit, hlevel]
  by_cases hm : m < 16
  · by_cases hhigh : level = Config.levelHigh
    · simp [hm, hhigh, eq_comm (a := m), show n.val ≠ m + 16 by omega]
    · simp [hm, hhigh, eq_comm (a := m), show n.val + 16 ≠ m by omega]
  · simp [hm, show m ≠ n.val by omega, BitVec.getLsbD_of_ge o m (by omega)]

/-- `ODATA` after a `TGL`: the pin's bit is flipped, the others stay (41_pin_io.md R154). -/
theorem getLsbD_flip_setWidth (o : Half) (n : Fin 16) (m : Nat) (hm : m < 16) :
    ((o.setWidth 32 ^^^ (1#32 <<< n.val)).setWidth 16).getLsbD m = if m = n.val then !o.getLsbD m else o.getLsbD m := by
  have hbit : (1#32 <<< n.val).getLsbD m = decide (m = n.val) := by
    have hn : n.val < 32 := by omega
    rw [← BitVec.twoPow_eq, BitVec.getLsbD_twoPow, decide_eq_true hn, Bool.true_and]
    exact decide_eq_decide.mpr eq_comm
  have hm32 : m < 32 := by omega
  simp only [BitVec.getLsbD_setWidth, BitVec.getLsbD_xor, hbit, hm, hm32, decide_true, Bool.true_and]
  by_cases h : m = n.val <;> simp [h]

/-- Settles O25: the run's one write, of the word with the pin's bit. -/
theorem setDrivesExactlyOneBit : Obligations.SetDrivesExactlyOneBit := by
  intro s k port pin level p n hstart hp hn hl hen
  exact ⟨_, execFor_set hstart hp hn hl hen, fun m _ => getLsbD_setReset_setWord _ level n m hl⟩

/-- Settles O26: the run's write of the word it has read, with the pin's bit flipped. -/
theorem tglFlipsExactlyOneBit : Obligations.TglFlipsExactlyOneBit := by
  intro s k port pin p n hstart hp hn hen
  exact ⟨_, execFor_tgl hstart hp hn hen, getLsbD_flip_setWidth _ n⟩

/-- Settles O27: both runs by O26; a bit flipped is not the bit, and flipped twice it is. -/
theorem tglTwiceRestoresTheBanks : Obligations.TglTwiceRestoresTheBanks := by
  intro s k port pin w p n hstart hp hn hen
  obtain ⟨o, hfirst, hflip⟩ := tglFlipsExactlyOneBit s k port pin p n hstart hp hn hen
  obtain ⟨hk, -, -⟩ := hstart
  obtain ⟨t', hissue, hstart', hbanks, hbankEn, -⟩ := issueCommand_after_run w hk hfirst rfl rfl
  have hen' : t'.bankEn[p] = true := by rw [hbankEn]; exact hen
  obtain ⟨o', hsecond, hflip'⟩ := tglFlipsExactlyOneBit t' _ port pin p n hstart' hp hn hen'
  refine ⟨_, t', _, hfirst, hissue, hsecond, fun hsame => ?changed, ?restored⟩
  case changed =>
    have hodata : o = s.banks[p].odata := by
      simpa using congrArg (fun banks : Vector Bank 8 => banks[p].odata) hsame
    have hpin := hflip n.val n.isLt
    rw [if_pos rfl, hodata] at hpin
    exact (Bool.eq_not_self _).mp hpin
  case restored =>
    have hodata : o' = s.banks[p].odata := by
      refine BitVec.eq_of_getLsbD_eq fun m hm => (hflip' m hm).trans ?_
      simp only [hbanks, Fin.getElem_fin, Vector.getElem_set_self, hflip m hm]
      split <;> simp
    calc t'.banks.set p { t'.banks[p] with odata := o' }
      _ = s.banks.set p s.banks[p] := by
        simp only [hbanks, hodata, Fin.getElem_fin, Vector.getElem_set_self, Vector.set_set]
      _ = s.banks := Vector.set_getElem_self _

/-- The level an `RD` takes from an enabled bank is the pad level (41_pin_io.md R158). -/
theorem levelRead_enabled (s : State) (p : Fin 8) (n : Fin 16) (hen : s.bankEn[p] = true) :
    levelRead s p n.val = padLevel s p n.val := by
  rw [levelRead, if_pos hen, decide_eq_true n.isLt, Bool.true_and]

/-- Settles O28: the run's one read, which takes the pad level and changes no bank. -/
theorem rdReturnsThePadLevel : Obligations.RdReturnsThePadLevel := by
  intro s k port pin p n hstart hp hn hen
  exact ⟨_, _, execFor_rd hstart hp hn, congrArg (List.set · s.cur _) (afterRead_ctxs s p .idata),
    afterRead_banks s p .idata, congrArg BitVec.ofBool (levelRead_enabled s p n hen), rfl, rfl, rfl, rfl⟩

/-- The low bit of a valid level is the level (30_encoding.md R112). -/
theorem toNat_ofBool_level (level : BitVec 2) (hl : level.toNat < 2) :
    (BitVec.ofBool (level.getLsbD 0)).toNat = level.toNat := by
  revert level
  decide

/-- Settles O29: the `SET` by O25, the `RD` by O28; the pad of a push-pull output shows the bit set. -/
theorem setThenReadYieldsTheLevel : Obligations.SetThenReadYieldsTheLevel := by
  intro s k port pin level w p n hstart hp hn hl hen hmode hotype
  obtain ⟨o, hset, hbits⟩ := setDrivesExactlyOneBit s k port pin level p n hstart hp hn hl hen
  obtain ⟨hk, -, -⟩ := hstart
  obtain ⟨t', hissue, hstart', hbanks, hbankEn, hcur⟩ := issueCommand_after_run w hk hset rfl rfl
  have hen' : t'.bankEn[p] = true := by rw [hbankEn]; exact hen
  obtain ⟨u, k', hrd, hctxs, -, hrval, hstatus, -⟩ := rdReturnsThePadLevel t' _ port pin p n hstart' hp hn hen'
  refine ⟨_, t', u, k', hset, hissue, hrd, ?context, ?level, hstatus⟩
  case context =>
    obtain ⟨hk', -, -⟩ := hstart'
    rw [hctxs, ← hcur]
    exact setContext_getElem?_cur hk' k'
  case level =>
    have hbank : t'.banks[p] = { s.banks[p] with odata := o } := by simp [hbanks]
    have hpad : padLevel t' p n.val = level.getLsbD 0 := by
      obtain ⟨hlow, hhigh⟩ := getLsbD_of_extractLsb'_eq_modeOutput _ _ hmode
      rw [padLevel_enabled t' p n.val hen', hbank, if_pos ⟨hlow, hhigh, hotype⟩, hbits n.val n.isLt, if_pos rfl]
    rw [hrval, hpad, toNat_ofBool_level level hl]

/-! ## What a step leaves alone -/

/-- The executing context before a move and after it. -/
theorem CommandMove.contexts_eq {i : Instr} {s u : State} {k k' k₀ k₁ : Context} (move : CommandMove i s k u k')
    (hk : s.ctxs[s.cur]? = some k) (hk₀ : s.ctxs[s.cur]? = some k₀)
    (hk₁ : (setContext u s.cur k').ctxs[s.cur]? = some k₁) : k = k₀ ∧ k' = k₁ := by
  rw [setContext_ctxs, move.ctxs_eq] at hk₁
  exact ⟨Option.some.inj (hk.symm.trans hk₀), Option.some.inj ((setContext_getElem?_cur hk k').symm.trans hk₁)⟩

/-- A step of a command performs no transaction and leaves the latches, or performs one of its list. -/
theorem CommandMove.stays_or_txn {i : Instr} {s u : State} {k k' : Context} (move : CommandMove i s k u k') :
    (u = s ∧ k'.rval = k.rval ∧ k'.tmp = k.tmp) ∨
      ∃ p n x, validate i = .pass p n ∧ x ∈ scriptOf s.params n i ∧ u = txnState s k p x ∧
        k'.rval = (txnContext s k p x).rval ∧ k'.tmp = (txnContext s k p x).tmp := by
  cases move with
  | rejected => exact .inl ⟨rfl, rfl, rfl⟩
  | validated => exact .inl ⟨rfl, rfl, rfl⟩
  | finished p n j x hv hu hx => exact .inr ⟨p, n, x, hv, List.mem_of_getElem? hx, rfl, rfl, rfl⟩
  | continued p n j x hv hu hx => exact .inr ⟨p, n, x, hv, List.mem_of_getElem? hx, rfl, rfl, rfl⟩

/-- A step of `SET` leaves the latches alone and is at most its one write (41_pin_io.md R150). -/
theorem CommandMove.of_set {s u : State} {k k' : Context} {port pin : BitVec 8} {level : BitVec 2}
    (move : CommandMove (.set port pin level) s k u k') :
    k'.rval = k.rval ∧ k'.tmp = k.tmp ∧
      (u = s ∨ ∃ p n, validateSet port pin level = .pass p n ∧ u = regWrite s p .setrst (setWord level n)) := by
  obtain ⟨rfl, hrval, htmp⟩ | ⟨p, n, x, hv, hx, rfl, hrval, htmp⟩ := move.stays_or_txn
  · exact ⟨hrval, htmp, .inl rfl⟩
  · obtain rfl : x = .store .setrst (setWord level n) := List.mem_singleton.mp hx
    exact ⟨hrval, htmp, .inr ⟨p, n, hv, rfl⟩⟩

/-- A step of `TGL` leaves `rval` alone and changes the banks at most by its write of `ODATA` (41_pin_io.md R154). -/
theorem CommandMove.of_tgl {s u : State} {k k' : Context} {port pin : BitVec 8}
    (move : CommandMove (.tgl port pin) s k u k') :
    k'.rval = k.rval ∧
      (u.banks = s.banks ∨ ∃ (p : Fin 8) (v : Word), port.toNat = p.val ∧ u = regWrite s p .odata v) := by
  obtain ⟨rfl, hrval, -⟩ | ⟨p, n, x, hv, hx, rfl, hrval, -⟩ := move.stays_or_txn
  · exact ⟨hrval, .inl rfl⟩
  · obtain ⟨hp, -⟩ := validatePin_pass port pin p n hv
    obtain rfl | rfl : x = .load .odata ∨ x = .storeFlipped .odata n.val := by simpa [scriptOf, tglScript] using hx
    · exact ⟨hrval, .inl (afterRead_banks s p .odata)⟩
    · exact ⟨hrval, .inr ⟨p, _, hp, rfl⟩⟩

/-- A step of `RD` changes no bank (41_pin_io.md R158). -/
theorem CommandMove.banks_of_rd {s u : State} {k k' : Context} {port pin : BitVec 8}
    (move : CommandMove (.rd port pin) s k u k') : u.banks = s.banks := by
  obtain ⟨rfl, -⟩ | ⟨p, n, x, -, hx, rfl, -⟩ := move.stays_or_txn
  · rfl
  · obtain rfl : x = .loadLevel n.val := List.mem_singleton.mp hx
    exact afterRead_banks s p .idata

/-- A write of a register that stands for `ODATA` changes no other register or bank (20_memory.md R79, R83). -/
theorem regWrite_bank_of_odata (s : State) (p q : Fin 8) (r : Reg) (v : Word) (hr : r = .setrst ∨ r = .odata) :
    { (regWrite s p r v).banks[q] with odata := s.banks[q].odata } = s.banks[q] ∧
      (p.val ≠ q.val → (regWrite s p r v).banks[q] = s.banks[q]) := by
  by_cases hq : q = p
  · subst hq
    refine ⟨?_, fun h => absurd rfl h⟩
    cases hen : s.bankEn[q] with
    | true => rw [regWrite_bank_self_enabled s q r v hen]; obtain rfl | rfl := hr <;> rfl
    | false => rw [regWrite_disabled s q r v hen]
  · have other : (regWrite s p r v).banks[q] = s.banks[q] := regWrite_bank_other s p q r v hq
    exact ⟨by rw [other], fun _ => other⟩

/-- The write of a `SET` changes no `ODATA` bit but its pin's (41_pin_io.md R150). -/
theorem getLsbD_odata_regWrite_setWord (s : State) (p q : Fin 8) (level : BitVec 2) (n : Fin 16) (m : Nat)
    (hl : level.toNat < 2) (hm : m ≠ n.val) :
    (regWrite s p .setrst (setWord level n)).banks[q].odata.getLsbD m = s.banks[q].odata.getLsbD m := by
  by_cases hq : q = p
  · subst hq
    cases hen : s.bankEn[q] with
    | true =>
      rw [regWrite_bank_self_enabled s q _ _ hen]
      exact (getLsbD_setReset_setWord _ level n m hl).trans (if_neg hm)
    | false => rw [regWrite_disabled s q _ _ hen]
  · exact congrArg (·.odata.getLsbD m) (regWrite_bank_other s p q .setrst _ hq)

/-- Settles O34: each command by what its step can be; its write, if there is one, is of `ODATA` of the bank named. -/
theorem dataCommandsFrame : Obligations.DataCommandsFrame := by
  intro s t port pin level
  refine ⟨fun h => ?set, fun h => ?tgl, fun h => ?rd⟩
  case set =>
    obtain ⟨k, u, k', hk, move, rfl⟩ := exec_next _ s t h
    obtain ⟨hrval, htmp, hbanks⟩ := move.of_set
    refine ⟨fun k₀ k₁ hk₀ hk₁ => ?latches, fun q => ?bank⟩
    case latches =>
      obtain ⟨rfl, rfl⟩ := move.contexts_eq hk hk₀ hk₁
      exact ⟨hrval, htmp⟩
    case bank =>
      obtain rfl | ⟨p, n, hv, rfl⟩ := hbanks
      · exact ⟨rfl, fun _ => rfl, fun _ _ => rfl⟩
      · obtain ⟨hp, hn, hl⟩ := validateSet_pass port pin level p n hv
        obtain ⟨hregs, hother⟩ := regWrite_bank_of_odata s p q .setrst (setWord level n) (.inl rfl)
        exact ⟨hregs, fun hq => hother (hp ▸ hq),
          fun m hm => getLsbD_odata_regWrite_setWord s p q level n m hl (hn ▸ hm)⟩
  case tgl =>
    obtain ⟨k, u, k', hk, move, rfl⟩ := exec_next _ s t h
    obtain ⟨hrval, hbanks⟩ := move.of_tgl
    refine ⟨fun k₀ k₁ hk₀ hk₁ => ?latches, fun q => ?bank⟩
    case latches =>
      obtain ⟨rfl, rfl⟩ := move.contexts_eq hk hk₀ hk₁
      exact hrval
    case bank =>
      rw [setContext_banks]
      obtain hsame | ⟨p, v, hp, rfl⟩ := hbanks
      · rw [hsame]
        exact ⟨rfl, fun _ => rfl⟩
      · rw [hp]
        exact regWrite_bank_of_odata s p q .odata v (.inr rfl)
  case rd =>
    obtain ⟨k, u, k', hk, move, rfl⟩ := exec_next _ s t h
    exact move.banks_of_rd

end Sys2Proof.Machine

/-! The statements of 60_exceptions.md. The first step of a command is its validation (`exec_start_eq_ite`). A fault is
raised by a command's step alone (`step_eq_fault`), and there only where no step is left: a sound context always has its
move (`exists_commandMove`). -/

namespace Sys2Proof.Machine

/-! ## Validation -/

/-- Validation passes identifiers that are in range (60_exceptions.md R173). -/
theorem exists_validatePin_pass (port pin : BitVec 8) (h : ¬(8 ≤ port.toNat ∨ 16 ≤ pin.toNat)) :
    ∃ p n, validatePin port pin = .pass p n := by
  obtain ⟨hp, hn⟩ := not_or.mp h
  exact ⟨⟨_, Nat.not_le.mp hp⟩, ⟨_, Nat.not_le.mp hn⟩, validatePin_valid port pin _ _ rfl rfl⟩

/-- The checks of `SET` pass identifiers and a level that are in range (41_pin_io.md R152). -/
theorem exists_validateSet_pass (port pin : BitVec 8) (level : BitVec 2)
    (h : ¬(8 ≤ port.toNat ∨ 16 ≤ pin.toNat ∨ 2 ≤ level.toNat)) : ∃ p n, validateSet port pin level = .pass p n := by
  obtain ⟨hp, hrest⟩ := not_or.mp h
  obtain ⟨hn, hl⟩ := not_or.mp hrest
  exact ⟨⟨_, Nat.not_le.mp hp⟩, ⟨_, Nat.not_le.mp hn⟩,
    validateSet_valid port pin level _ _ rfl rfl (Nat.not_le.mp hl)⟩

/-- The first step of a command that validation rejects exactly under `invalid` (60_exceptions.md R172, R173). -/
theorem exec_start_eq_ite {i : Instr} {s : State} {k : Context} {st : Status} (invalid : Prop) [Decidable invalid]
    (hk : s.ctxs[s.cur]? = some k) (hu : k.ustep = 0) (hreject : invalid → validate i = .reject st)
    (hpass : ¬invalid → ∃ p n, validate i = .pass p n) :
    exec i s = if invalid then .next (setContext s s.cur (completed k st))
      else .next (setContext s s.cur { k with ustep := 1 }) := by
  split
  · next h => exact exec_start_reject hk hu (hreject h)
  · next h =>
    obtain ⟨p, n, hv⟩ := hpass h
    exact exec_start_pass hk hu hv

/-- Settles O18: `INIT`, `TGL` and `RD` share the range checks of `validatePin`, `SET` has those of `validateSet`; either
way the step is `exec_start_eq_ite`. -/
theorem validationDecidesTheFirstStep : Obligations.ValidationDecidesTheFirstStep := by
  intro s k hk hu
  have pinStep (i : Instr) (port pin : BitVec 8) (hv : validate i = validatePin port pin) :=
    exec_start_eq_ite (i := i) (8 ≤ port.toNat ∨ 16 ≤ pin.toNat) hk hu
      (fun h => hv.trans (validatePin_invalid port pin h)) (fun h => hv ▸ exists_validatePin_pass port pin h)
  refine ⟨fun port pin mode pull otype speed af => ?init, fun port pin level => ?set, fun port pin => ?tgl,
    fun port pin => ?rd⟩
  case init => exact pinStep _ port pin rfl
  case set =>
    exact exec_start_eq_ite _ hk hu (validateSet_invalid port pin level) (exists_validateSet_pass port pin level)
  case tgl => exact pinStep _ port pin rfl
  case rd => exact pinStep _ port pin rfl

/-! ## No fault -/

/-- A command has a move at every step index below its step count (10_state.md R57). -/
theorem exists_commandMove (i : Instr) (s : State) (k : Context) (hu : k.ustep.toNat < stepCount s.params i) :
    ∃ u k', CommandMove i s k u k' := by
  cases hv : validate i with
  | reject st =>
    rw [stepCount_reject _ i st hv] at hu
    exact ⟨_, _, .rejected st hv (Nat.lt_one_iff.mp hu)⟩
  | pass p n =>
    rw [stepCount_pass _ i p n hv] at hu
    cases hj : k.ustep.toNat with
    | zero => exact ⟨_, _, .validated p n hv hj⟩
    | succ j =>
      have hx := List.getElem?_eq_getElem (show j < (scriptOf s.params n i).length by omega)
      by_cases hl : j + 1 = (scriptOf s.params n i).length
      · exact ⟨_, _, .finished p n j _ hv hj hx hl⟩
      · exact ⟨_, _, .continued p n j _ hv hj hx hl⟩

/-- A sound context with a command in flight stands at a step the command has (10_state.md R57). -/
theorem ustep_lt_stepCount (P : Params) (k : Context) (hb : k.busy = true) (hs : contextSound P k = true) :
    k.ustep.toNat < stepCount P (decodeWord k.cmd) := by
  simp only [contextSound, hb, Bool.not_true, Bool.false_or, Bool.and_eq_true, decide_eq_true_eq] at hs
  obtain ⟨-, hstep⟩ := hs
  exact hstep

/-- An issue is no fault: what cannot be issued is refused (10_state.md R56). -/
theorem issueCommand_ne_fault (s : State) (c : Nat) (w : Word) (f : Fault) : issueCommand s c w ≠ .fault f := by
  unfold issueCommand
  split
  · simp
  · split <;> simp

/-- A direct-port read is no fault: an invalid selector is refused (20_memory.md R85). -/
theorem directRead_ne_fault (s : State) (p r : Nat) (f : Fault) : directRead s p r ≠ .fault f := by
  unfold directRead
  split <;> simp

/-- A direct-port write is no fault: an invalid selector is refused (20_memory.md R85). -/
theorem directWrite_ne_fault (s : State) (p r : Nat) (v : Word) (f : Fault) : directWrite s p r v ≠ .fault f := by
  unfold directWrite
  split <;> simp

/-- A platform read is no fault: an access that is none of the block's is refused (20_memory.md R73 to R75). -/
theorem platformRead_ne_fault (s : State) (addr size : Nat) (f : Fault) : platformRead s addr size ≠ .fault f := by
  unfold platformRead
  split
  · split <;> simp
  · simp

/-- A platform write is no fault: an access that is none of the block's is refused (20_memory.md R73 to R75). -/
theorem platformWrite_ne_fault (s : State) (addr size : Nat) (v : Word) (f : Fault) :
    platformWrite s addr size v ≠ .fault f := by
  unfold platformWrite
  split
  · split <;> simp
  · simp

/-- The choice of a context is no fault by itself: an idle one and one beyond `NCTX` are refused. -/
theorem runContext_ne_done_fault (s : State) (c : Nat) (f : Fault) : runContext s c ≠ .done (.fault f) := by
  intro h
  obtain ⟨r, hr⟩ := runContext_done s c _ h
  cases hr

/-- No prescribed move of another agent is a fault (60_exceptions.md R170). -/
theorem takeInput_ne_done_fault (s : State) (x : Input) (f : Fault) : takeInput s x ≠ .done (.fault f) := by
  intro h
  cases x with
  | issue c w => exact issueCommand_ne_fault s c w f (Selection.done.inj h)
  | run c => exact runContext_ne_done_fault s c f h
  | dpRead p r => exact directRead_ne_fault s p r f (Selection.done.inj h)
  | dpWrite p r v => exact directWrite_ne_fault s p r v f (Selection.done.inj h)
  | busRead addr size => exact platformRead_ne_fault s addr size f (Selection.done.inj h)
  | busWrite addr size v => exact platformWrite_ne_fault s addr size v f (Selection.done.inj h)
  | bankEn p e => cases h
  | rst => cases h

/-- No move that is no command's is a fault, prescribed or not. -/
theorem nextMove_ne_done_fault (s : State) (f : Fault) : nextMove s ≠ .done (.fault f) := by
  unfold nextMove
  split
  · exact takeInput_ne_done_fault _ _ f
  · split
    · simp
    · exact runContext_ne_done_fault _ _ f
    · exact runContext_ne_done_fault _ _ f

/-- A fault can come only from a step of the command a busy context latched. -/
theorem step_eq_fault (s : State) (f : Fault) (h : step s = .fault f) :
    ∃ u k, s.ctxs[u.cur]? = some k ∧ k.busy = true ∧ u.ctxs = s.ctxs ∧ u.params = s.params ∧
      exec (decodeWord k.cmd) u = .fault f := by
  cases hm : nextMove s with
  | command i u =>
    obtain ⟨k, hk, hb, rfl, hctxs, -, hparams, -, -, -⟩ := nextMove_command s u i hm
    exact ⟨u, k, hk, hb, hctxs, hparams, step_of_command s u _ hm ▸ h⟩
  | done o =>
    obtain rfl : o = .fault f := step_of_done s o hm ▸ h
    exact absurd hm (nextMove_ne_done_fault s f)

/-- Settles O45: a fault would be a step of a sound busy context's command, and that one has a move. -/
theorem soundStatesNeverFault : Obligations.SoundStatesNeverFault := by
  intro s f hs h
  obtain ⟨-, hsound⟩ := (stateSound_iff s).mp hs
  obtain ⟨u, k, hk, hb, hctxs, hparams, hfault⟩ := step_eq_fault s f h
  have hu : k.ustep.toNat < stepCount u.params (decodeWord k.cmd) :=
    hparams ▸ ustep_lt_stepCount s.params k hb (hsound _ k hk)
  obtain ⟨v, k', move⟩ := exists_commandMove (decodeWord k.cmd) u k hu
  have hnext := exec_of_commandMove _ u v k k' (hctxs ▸ hk) move
  cases hnext.symm.trans hfault

end Sys2Proof.Machine

/-! The statements of 70_reset_and_hazards.md. A command other than `RD` on an enabled bank replaces that bank and its
context by what it sees of the state (`exec_eq_replaced`), and what another command replaces it does not see
(`showSame_replaced`). The two interleaved `INIT` are followed move by move in what matters to `MODE` (`ShowsMode`). -/

namespace Sys2Proof.Machine

/-! ## Reset -/

/-- A prescribed `rst` resets the block (70_reset_and_hazards.md R190). -/
theorem step_of_rst_input (s : State) (rest : List Input) (hin : s.inputs = .rst :: rest) :
    step s = .next (resetBlock { s with inputs := rest }) :=
  step_of_input_done s .rst rest _ hin rfl

/-- The contexts of a reset are idle and present no response (70_reset_and_hazards.md R192, R196). -/
theorem idle_of_mem_idleContexts (d n : Nat) (k : Context) (h : k ∈ idleContexts d n) :
    k.busy = false ∧ k.respValid = false := by
  obtain ⟨l, rfl⟩ := mem_idleContexts d n k h
  exact ⟨idleContext_busy l, idleContext_respValid l⟩

/-- Settles O42: `State.reset` by its fields, and `rst` as the reset of the block without that move. -/
theorem resetLeavesTheListedValues : Obligations.ResetLeavesTheListedValues := by
  refine ⟨⟨rfl, idle_of_mem_idleContexts 0 Config.nctx⟩, fun s rest hin => ?_⟩
  exact ⟨_, step_of_rst_input s rest hin, rfl, idleContexts_length .., idle_of_mem_idleContexts s.draws s.ctxs.length,
    rfl, rfl, rfl⟩

/-! ## What a command sees of the state -/

/-- The transactions of a field update reach the register of the field only. -/
theorem txnKind_reg_of_mem_fieldUpdate {split : RmwSplit} {l : Loc} {v : Word} {x : Txn}
    (h : x ∈ fieldUpdate split l v) : (txnKind x).2 = l.reg := by
  obtain rfl | rfl | rfl | rfl := mem_fieldUpdate split l v x h <;> rfl

/-- Only an `RD` reaches `IDATA` (20_memory.md R71). -/
theorem eq_rd_of_reaches_idata (P : Params) (n : Fin 16) (i : Instr) (x : Txn) (hx : x ∈ scriptOf P n i)
    (hreg : (txnKind x).2 = .idata) : ∃ port pin, i = .rd port pin := by
  cases i with
  | init _ _ mode pull otype speed af =>
    rw [scriptOf, initScript_eq_flatMap] at hx
    obtain ⟨f, hf, hx⟩ := List.mem_flatMap.mp hx
    have hwrites := initWrites_of_mem_initFields P mode pull otype speed af n f hf
    rw [← txnKind_reg_of_mem_fieldUpdate hx, hreg] at hwrites
    exact hwrites.elim
  | initNull => simp [scriptOf] at hx
  | set _ _ level =>
    obtain rfl : x = .store .setrst (setWord level n) := by simpa [scriptOf, setScript] using hx
    cases hreg
  | tgl _ _ =>
    obtain rfl | rfl : x = .load .odata ∨ x = .storeFlipped .odata n.val := by simpa [scriptOf, tglScript] using hx
    · cases hreg
    · cases hreg
  | rd port pin => exact ⟨port, pin, rfl⟩

/-- States `s` and `t` show the same to a command on bank `p`: the parameters, that bank with its enable, and the
executing context. -/
structure ShowSame (p : Fin 8) (s t : State) : Prop where
  params  : t.params = s.params
  enabled : t.bankEn[p] = s.bankEn[p]
  bank    : t.banks[p] = s.banks[p]
  context : t.ctxs[t.cur]? = s.ctxs[s.cur]?

theorem ShowSame.refl (p : Fin 8) (s : State) : ShowSame p s s := ⟨rfl, rfl, rfl, rfl⟩

/-- State `s` with bank `p` replaced by `b` and context `c` by `k`. -/
def replaced (s : State) (p : Fin 8) (b : Bank) (c : Nat) (k : Context) : State :=
  { s with banks := s.banks.set p b, ctxs := s.ctxs.set c k }

/-- Replacements of different banks and contexts commute. -/
theorem replaced_comm {p q : Fin 8} {c d : Nat} (s : State) (b b' : Bank) (k k' : Context) (hpq : p ≠ q)
    (hcd : c ≠ d) : replaced (replaced s p b c k) q b' d k' = replaced (replaced s q b' d k') p b c k := by
  simp only [replaced, Vector.set_comm b b' (Fin.val_ne_of_ne hpq), List.set_comm k k' hcd]

/-- A replacement of another bank and another context does not show to context `d` on bank `q`. -/
theorem showSame_replaced {p q : Fin 8} {c d : Nat} (s : State) (b : Bank) (k : Context) (hpq : p ≠ q)
    (hcd : c ≠ d) : ShowSame q { s with cur := d } (replaced { s with cur := d } p b c k) where
  params  := rfl
  enabled := rfl
  bank    := Vector.getElem_set_ne p.isLt q.isLt (Fin.val_ne_of_ne hpq)
  context := List.getElem?_set_ne hcd

/-! ## Steps on different banks -/

section OnOneBank

variable {i : Instr} {s : State} {p : Fin 8} {m : Fin 16}

/-- A transaction other than on `IDATA`, by a command on an enabled bank, at most replaces that bank. The new bank and
what the context takes are the same from every state that shows the command the same (20_memory.md R86, R89). -/
theorem exists_bank_of_txn (x : Txn) (k : Context) (hen : s.bankEn[p] = true) (hreg : (txnKind x).2 ≠ .idata) :
    ∃ b, ∀ t, ShowSame p s t →
      txnState t k p x = { t with banks := t.banks.set p b } ∧ txnContext t k p x = txnContext s k p x := by
  have load (r : Reg) (hr : r ≠ .idata) (t : State) (h : ShowSame p s t) :
      afterRead t p r = { t with banks := t.banks.set p s.banks[p] } ∧ regRead t p r = regRead s p r := by
    have hen' := h.enabled.trans hen
    rw [afterRead_enabled t p r hen' hr, regRead_eq_storedValue t p r hen' hr, regRead_eq_storedValue s p r hen hr,
      ← h.bank]
    simp
  have store (r : Reg) (v : Word) (t : State) (h : ShowSame p s t) :
      regWrite t p r v = { t with banks := t.banks.set p (writeBank s.banks[p] r v) } := by
    rw [regWrite_enabled t p r v (h.enabled.trans hen), h.bank]
  cases x with
  | load r => exact ⟨_, fun t h => (load r hreg t h).imp_right fun hread => by simp only [txnContext, hread]⟩
  | loadLevel n => exact absurd rfl hreg
  | storeUpdated l v => exact ⟨_, fun t h => ⟨store _ _ t h, rfl⟩⟩
  | storeCleared l => exact ⟨_, fun t h => ⟨store _ _ t h, rfl⟩⟩
  | storeSet l v => exact ⟨_, fun t h => ⟨store _ _ t h, rfl⟩⟩
  | storeFlipped r n => exact ⟨_, fun t h => ⟨store _ _ t h, rfl⟩⟩
  | store r v => exact ⟨_, fun t h => ⟨store _ _ t h, rfl⟩⟩

/-- A move of a valid command other than `RD` on an enabled bank is a move from every state that shows it the same,
and puts the same bank in place there (20_memory.md R89). -/
theorem CommandMove.exists_bank {u : State} {k k' : Context} (move : CommandMove i s k u k')
    (hv : validate i = .pass p m) (hrd : ∀ port pin, i ≠ .rd port pin) (hen : s.bankEn[p] = true) :
    ∃ b, ∀ t, ShowSame p s t → CommandMove i t k { t with banks := t.banks.set p b } k' := by
  have txn (n : Fin 16) (j : Nat) (x : Txn) (hx : (scriptOf s.params n i)[j]? = some x) :=
    exists_bank_of_txn x k hen fun hreg =>
      have ⟨port, pin, hi⟩ := eq_rd_of_reaches_idata _ n i x (List.mem_of_getElem? hx) hreg
      hrd port pin hi
  cases move with
  | rejected st hreject => cases hv.symm.trans hreject
  | validated q n hq hu =>
    refine ⟨s.banks[p], fun t h => ?_⟩
    rw [← h.bank, Fin.getElem_fin, Vector.set_getElem_self]
    exact .validated q n hq hu
  | finished q n j x hq hu hx hl =>
    cases hv.symm.trans hq
    obtain ⟨b, htxn⟩ := txn m j x hx
    refine ⟨b, fun t h => ?_⟩
    obtain ⟨hstate, hcontext⟩ := htxn t h
    rw [← hstate, ← hcontext]
    exact .finished p m j x hq hu (h.params ▸ hx) (h.params ▸ hl)
  | continued q n j x hq hu hx hl =>
    cases hv.symm.trans hq
    obtain ⟨b, htxn⟩ := txn m j x hx
    refine ⟨b, fun t h => ?_⟩
    obtain ⟨hstate, hcontext⟩ := htxn t h
    rw [← hstate, ← hcontext]
    exact .continued p m j x hq hu (h.params ▸ hx) (h.params ▸ hl)

/-- A step of a valid command other than `RD` on an enabled bank replaces its bank and its context: by the same ones
from every state that shows it the same. -/
theorem exec_eq_replaced {s' : State} (h : exec i s = .next s') (hv : validate i = .pass p m)
    (hrd : ∀ port pin, i ≠ .rd port pin) (hen : s.bankEn[p] = true) :
    ∃ b k, ∀ t, ShowSame p s t → exec i t = .next (replaced t p b t.cur k) := by
  obtain ⟨k, u, k', hk, move, -⟩ := exec_next i s s' h
  obtain ⟨b, hmove⟩ := move.exists_bank hv hrd hen
  exact ⟨b, k', fun t h => exec_of_commandMove i t _ k k' (h.context.trans hk) (hmove t h)⟩

end OnOneBank

/-- Settles O51: each command replaces by the same bank and context after the other's step as before it, and the two
replacements commute. -/
theorem stepsOnDifferentBanksCommute : Obligations.StepsOnDifferentBanksCommute := by
  intro s t1 t2 i j c d p q m n hcd hpq hi hj hird hjrd hp hq h1 h2
  obtain ⟨b1, k1, first⟩ := exec_eq_replaced h1 hi hird hp
  obtain ⟨b2, k2, second⟩ := exec_eq_replaced h2 hj hjrd hq
  cases h1.symm.trans (first _ (.refl ..))
  cases h2.symm.trans (second _ (.refl ..))
  refine ⟨replaced (replaced s p b1 c k1) q b2 d k2, second _ (showSame_replaced s b1 k1 hpq hcd), ?_⟩
  rw [replaced_comm s b1 b2 k1 k2 hpq hcd]
  exact first _ (showSame_replaced s b2 k2 hpq.symm hcd.symm)

/-! ## Two interleaved `INIT` -/

/-- As far as `MODE` of bank A goes, state `t` has contexts `ks`, holds `w` in that register and has `moves` prescribed;
the bank is enabled, and a field update is one read and one write. -/
structure ShowsMode (ks : List Context) (w : Word) (moves : List Input) (t : State) : Prop where
  ctxs    : t.ctxs = ks
  mode    : t.banks[(0 : Fin 8)].mode = w
  inputs  : t.inputs = moves
  enabled : t.bankEn[(0 : Fin 8)] = true
  split   : t.params.rmwSplit = .one

namespace ShowsMode

section Steps

variable {ks : List Context} {k : Context} {w : Word} {moves : List Input} {c : Nat} {t : State}

/-- An issue on an idle context (10_state.md R56). -/
theorem step_issue {word : Word} (h : ShowsMode ks w (.issue c word :: moves) t) (hk : ks[c]? = some k)
    (hb : k.busy = false) : ∃ t', step t = .next t' ∧ ShowsMode (ks.set c (issued k word)) w moves t' := by
  obtain ⟨issue, -⟩ := issueLatchesTheWord t c k word moves (h.ctxs ▸ hk) h.inputs
  exact ⟨_, issue hb, congrArg (List.set · c (issued k word)) h.ctxs, h.mode, rfl, h.enabled, h.split⟩

variable {port pin : BitVec 8} {mode pull : BitVec 2} {otype : BitVec 1} {speed : BitVec 2} {af : BitVec 4} {n : Fin 16}

/-- The first step of a valid `INIT` of bank A: validation (40_configuration.md R136). -/
theorem step_validate (h : ShowsMode ks w (.run c :: moves) t) (hk : ks[c]? = some k) (hb : k.busy = true)
    (hu : k.ustep = 0) (hi : decodeWord k.cmd = .init port pin mode pull otype speed af) (hp : port.toNat = 0)
    (hn : pin.toNat = n.val) : ∃ t', step t = .next t' ∧ ShowsMode (ks.set c { k with ustep := 1 }) w moves t' := by
  obtain ⟨rfl, rfl, hin, hen, hsplit⟩ := h
  let u : State := { t with inputs := moves, cur := c }
  have hv : validate (decodeWord k.cmd) = .pass 0 n := hi ▸ validatePin_valid port pin 0 n hp hn
  have validate := exec_start_pass (s := u) hk hu hv
  exact ⟨_, (step_of_run_input t c k moves hin hk hb).trans validate, rfl, rfl, rfl, hen, hsplit⟩

/-- The second step of a valid `INIT` of bank A: the read of `MODE` (40_configuration.md R136). -/
theorem step_read (h : ShowsMode ks w (.run c :: moves) t) (hk : ks[c]? = some k) (hb : k.busy = true)
    (hu : k.ustep = 1) (hi : decodeWord k.cmd = .init port pin mode pull otype speed af) (hp : port.toNat = 0)
    (hn : pin.toNat = n.val) :
    ∃ t', step t = .next t' ∧ ShowsMode (ks.set c { k with tmp := w, ustep := 2 }) w moves t' := by
  obtain ⟨rfl, rfl, hin, hen, hsplit⟩ := h
  let u : State := { t with inputs := moves, cur := c }
  have read : exec (.init port pin mode pull otype speed af) u = _ :=
    exec_init_load (s := u) (p := 0) hk hsplit hp hn 0 (locate .mode n) _ rfl (by rw [hu]; rfl)
  rw [afterRead_enabled u 0 _ hen (by simp [locate]), regRead_enabled u 0 _ hen, hu, ← hi] at read
  exact ⟨_, (step_of_run_input t c k moves hin hk hb).trans read, rfl, rfl, rfl, hen, hsplit⟩

/-- The third step of a valid `INIT` of pin `n` of bank A: the write of `MODE` (40_configuration.md R136). -/
theorem step_write (h : ShowsMode ks w (.run c :: moves) t) (hk : ks[c]? = some k) (hb : k.busy = true)
    (hu : k.ustep = 2) (hi : decodeWord k.cmd = .init port pin mode pull otype speed af) (hp : port.toNat = 0)
    (hn : pin.toNat = n.val) :
    ∃ t', step t = .next t' ∧
      ShowsMode (ks.set c (advanced k)) (updateField k.tmp 2 (2 * n.val) (mode.setWidth 32)) moves t' := by
  obtain ⟨rfl, rfl, hin, hen, hsplit⟩ := h
  let u : State := { t with inputs := moves, cur := c }
  have write : exec (.init port pin mode pull otype speed af) u = _ :=
    exec_init_store (s := u) (p := 0) hk hsplit hp hn 0 (locate .mode n) _ rfl (by rw [hu]; rfl)
  rw [regWrite_enabled u 0 _ _ hen, if_neg (by simp [initFields]), ← hi] at write
  exact ⟨_, (step_of_run_input t c k moves hin hk hb).trans write, rfl,
    congrArg Bank.mode (Vector.getElem_set_self (by decide)), rfl, hen, hsplit⟩

end Steps

theorem decodeWord_initPin0 : decodeWord 0x20010000#32 = .init 0 0 1 0 0 0 0 := by decide
theorem decodeWord_initPin1 : decodeWord 0x20010001#32 = .init 0 1 1 0 0 0 0 := by decide

/-- The schedule of 70_reset_and_hazards.md R204, move by move: the last write puts pin 1's mode into the word that
context 1 read before the first write. -/
theorem run_interleaved {k0 k1 : Context} {others : List Context} {t : State}
    (start : ShowsMode (k0 :: k1 :: others) 0 [.issue 0 0x20010000#32, .issue 1 0x20010001#32, .run 0, .run 0, .run 1,
      .run 1, .run 0, .run 1] t) (hk0 : k0.busy = false) (hk1 : k1.busy = false) :
    ∃ t', Host.Core.run Sys2Proof.core 8 t = .next t' ∧ t'.banks[(0 : Fin 8)].mode = 4 := by
  obtain ⟨t₁, issue0, h⟩ := start.step_issue rfl hk0
  obtain ⟨t₂, issue1, h⟩ := h.step_issue rfl hk1
  obtain ⟨t₃, valid0, h⟩ := h.step_validate (n := 0) rfl rfl rfl decodeWord_initPin0 rfl rfl
  obtain ⟨t₄, read0, h⟩ := h.step_read (n := 0) rfl rfl rfl decodeWord_initPin0 rfl rfl
  obtain ⟨t₅, valid1, h⟩ := h.step_validate (n := 1) rfl rfl rfl decodeWord_initPin1 rfl rfl
  obtain ⟨t₆, read1, h⟩ := h.step_read (n := 1) rfl rfl rfl decodeWord_initPin1 rfl rfl
  obtain ⟨t₇, write0, h⟩ := h.step_write (n := 0) rfl rfl rfl decodeWord_initPin0 rfl rfl
  obtain ⟨t₈, write1, h⟩ := h.step_write (n := 1) rfl rfl rfl decodeWord_initPin1 rfl rfl
  have lost : updateField 0#32 2 (2 * 1) ((1#2).setWidth 32) = 4 := by decide
  refine ⟨t₈, ?run, h.mode.trans lost⟩
  case run =>
    rw [core_run_of_step 7 _ _ issue0, core_run_of_step 6 _ _ issue1, core_run_of_step 5 _ _ valid0,
      core_run_of_step 4 _ _ read0, core_run_of_step 3 _ _ valid1, core_run_of_step 2 _ _ read1,
      core_run_of_step 1 _ _ write0, core_run_of_step 0 _ _ write1]
    rfl

end ShowsMode

/-- Settles O50: the given state shows the start of the schedule. -/
theorem interleavedInitsLoseAModeUpdate : Obligations.InterleavedInitsLoseAModeUpdate :=
  fun _ _ _ _ hctxs hk0 hk1 hen hmode hsplit => ShowsMode.run_interleaved ⟨hctxs, hmode, rfl, hen, hsplit⟩ hk0 hk1

end Sys2Proof.Machine
